-- ==== Sys2Proof/Word.lean ====
section
/-! DEFINITION. The words of the unit: bytes, code-unit lanes, and the record of the vector datapath
registers (10_state.md R32). Nothing here computes. -/

namespace Sys2Proof

/-- One byte of caller memory, of a table entry, or of a byte lane. -/
abbrev Byte := BitVec 8

/-- A lane of `8 * CW` bits (R32). The three widths share one Lean type; a lane of 8 or 16 bits is held
zero-extended, and the operations of Machine/Lanes.lean keep the bits above its width zero. -/
abbrev Lane := BitVec 32

/-- The vector datapath registers of R32, under the names of that rule's table. A register is the list of
its lanes, lane 0 first (R141); `w`, `mr`, `z`, `g` are the lists of their `CW` sub-registers. -/
structure VecRegs where
  w : List (List Lane)
  mr : List (List Lane)
  x : List Byte
  m0 : List Byte
  m1 : List Byte
  m2 : List Byte
  h : List Byte
  l : List Byte
  p : List Byte
  b : List Byte
  e : List Byte
  z : List (List Lane)
  g : List (List Lane)
  deriving DecidableEq, Repr, Inhabited

end Sys2Proof
end

