-- ==== Sys2Proof/Config.lean ====
section
/-! DEFINITION. What an implementation fixes (00_scope.md R10 to R15) and the free values of the model.
The parameters travel in State (`State.params`), so every claim about all states is a claim about every
choice of them. The free values are constants without a body: nothing can be proved about them. -/

namespace Sys2Proof

/-- `TIER` (R10), fixed when the unit is built. -/
inductive Tier where
  | generic
  | narrow
  | wide
  deriving DecidableEq, Repr

/-- `FAIL_OUTPUT` (60_exceptions.md R228): what a model promises of the destination after
InvalidCharacterError. -/
inductive FailOutput where
  | contract
  | reference
  deriving DecidableEq, Repr

/-- The parameters of one unit (R15): `TIER`, `ADDR_BITS`, `LEN_BITS`, `FAIL_OUTPUT`. -/
structure Params where
  tier : Tier
  addrBits : Nat
  lenBits : Nat
  failOutput : FailOutput
  deriving DecidableEq, Repr

/-- The parameters of the unit that `State.reset` describes. DESIGN CHOICE (log entry 1): the spec gives
`TIER`, `ADDR_BITS` and `LEN_BITS` no default; `contract` is the default of R228. -/
def Config.resetParams : Params :=
  { tier := .narrow, addrBits := 32, lenBits := 32, failOutput := .contract }

/-- `any value` of a destination byte (R228, 93_implementation_defined.md U1 and U15), one for each draw. -/
opaque Config.freeByte : Nat → Byte

/-- `any value` of `IN_OFF` or `OUT_OFF` once a command has ended (R30, U13), one for each draw. -/
opaque Config.freeOffset : Nat → Nat

/-- `any value` of the vector datapath registers once a command has ended (R33, U13), one for each draw. -/
opaque Config.freeVec : Nat → VecRegs

end Sys2Proof
end

