-- ==== Sys2Proof/Syntax.lean ====
section
/-! DEFINITION. What a host can say to the unit: the six commands (30_encoding.md R83), the fields of a
command byte (R80), the six registers (10_state.md R20), the host's accesses, and the command lines of
30_encoding.md R92 and R93. -/

namespace Sys2Proof

/-- The operation of a command (R81). -/
inductive Op where
  | dec
  | enc
  deriving DecidableEq, Repr

/-- The character width `CW` of a command (R11, R82). -/
inductive CharWidth where
  | one
  | two
  | four
  deriving DecidableEq, Repr

/-- `CW` as a number of bytes (R11). -/
def CharWidth.bytes : CharWidth → Nat
  | .one => 1
  | .two => 2
  | .four => 4

/-- The six commands of R83, one constructor for each row of the opcode table. A command byte holds no
operand: the operands are the registers `SRC_BASE`, `SRC_LEN`, `DST_BASE`, `DST_CAP` (R80). -/
inductive Instr where
  | decC1
  | decC2
  | decC4
  | encC1
  | encC2
  | encC4
  deriving DecidableEq, Repr

/-- The operation of each command (R83). -/
def Instr.op : Instr → Op
  | .decC1 => .dec
  | .decC2 => .dec
  | .decC4 => .dec
  | .encC1 => .enc
  | .encC2 => .enc
  | .encC4 => .enc

/-- The character width of each command (R83). -/
def Instr.cw : Instr → CharWidth
  | .decC1 => .one
  | .decC2 => .two
  | .decC4 => .four
  | .encC1 => .one
  | .encC2 => .two
  | .encC4 => .four

/-- Format `C` (R80): the three fields of a command byte, whatever their values. -/
structure CommandWord where
  rsv : BitVec 4
  cwsel : BitVec 2
  op : BitVec 2
  deriving DecidableEq, Repr

/-- The six host-visible registers (R20). -/
inductive Reg where
  | cmd
  | status
  | srcBase
  | srcLen
  | dstBase
  | dstCap
  deriving DecidableEq, Repr

/-- One thing the host, or the platform around the unit, does (R16, R92, R250). -/
inductive HostAct where
  /-- `WR CMD, b`, then the wait until `STATUS.CODE` is not `BUSY`: the command form of R92, in one step. -/
  | call (b : Byte)
  /-- `WR name, value` (R92): a bare register write; a write of `CMD` starts a command and does not wait. -/
  | wr (r : Reg) (v : Nat)
  /-- `RD name` (R92). -/
  | rd (r : Reg)
  /-- The host stores one byte of caller memory (R16, R50). -/
  | store (a : Nat) (b : Byte)
  /-- The host loads one byte of caller memory (R16, R50). -/
  | load (a : Nat)
  /-- The host lets the unit take one step. -/
  | idle
  /-- The host waits until `STATUS.CODE` is not `BUSY` (R92, R255). -/
  | wait
  /-- The platform applies reset (R250, R251). -/
  | reset
  deriving DecidableEq, Repr

/-- A command line `MNEMONIC src, n, dst, cap` (R92). -/
structure CommandLine where
  instr : Instr
  src : Nat
  n : Nat
  dst : Nat
  cap : Nat
  deriving DecidableEq, Repr

/-- The pseudo-command `ENCA.Cw src, n` (R93), with the buffer `dst` that the host's allocator gave. -/
structure EncaLine where
  cw : CharWidth
  src : Nat
  n : Nat
  dst : Nat
  deriving DecidableEq, Repr

end Sys2Proof
end

