-- ==== Sys2Proof/WellFormed.lean ====
section
/-! DEFINITION. When a term of Syntax.lean means something: the legality of a command word
(30_encoding.md R84), the bounds of the parameters (92_eei_decisions.md, "Open parameters"), and what a
host access can carry (10_state.md R20, 20_memory.md R50). Every check is a Bool. -/

namespace Sys2Proof

/-- `CMD[7:4]` is 0 (R84). -/
def CommandWord.rsvOk (c : CommandWord) : Bool := c.rsv == 0

/-- `CMD[1:0]` is `DEC` or `ENC` (R81, R84). -/
def CommandWord.opOk (c : CommandWord) : Bool := c.op == 1 || c.op == 2

/-- `CMD[3:2]` is not the reserved `0b11` (R82, R84). -/
def CommandWord.cwselOk (c : CommandWord) : Bool := c.cwsel != 3

/-- A legal command word (R84). -/
def CommandWord.wf (c : CommandWord) : Bool := c.rsvOk && c.opOk && c.cwselOk

/-- The fields of a command (R83). -/
def Instr.word (i : Instr) : CommandWord :=
  { rsv := 0
    cwsel := match i.cw with
      | .one => 0
      | .two => 1
      | .four => 2
    op := match i.op with
      | .dec => 1
      | .enc => 2 }

/-- A command is well formed when its fields are (R84). -/
def Instr.wf (i : Instr) : Bool := i.word.wf

/-- `ADDR_BITS` and `LEN_BITS` are positive ("any positive integer"). -/
def Params.wf (p : Params) : Bool := decide (0 < p.addrBits) && decide (0 < p.lenBits)

/-- The width in bits of each register (R20). -/
def Reg.width (p : Params) : Reg → Nat
  | .cmd => 8
  | .status => 8
  | .srcBase => p.addrBits
  | .srcLen => p.lenBits
  | .dstBase => p.addrBits
  | .dstCap => p.lenBits

/-- A register write carries a value of the register's width (R20); a memory access names an address of
caller memory (R50). -/
def HostAct.wf (p : Params) : HostAct → Bool
  | .call _ => true
  | .wr r v => decide (v < 2 ^ r.width p)
  | .rd _ => true
  | .store a _ => decide (a < 2 ^ p.addrBits)
  | .load a => decide (a < 2 ^ p.addrBits)
  | .idle => true
  | .wait => true
  | .reset => true

/-- The operands of a command line fit the operand registers (R92, R20). -/
def CommandLine.wf (p : Params) (c : CommandLine) : Bool :=
  decide (c.src < 2 ^ p.addrBits) && decide (c.n < 2 ^ p.lenBits) &&
    decide (c.dst < 2 ^ p.addrBits) && decide (c.cap < 2 ^ p.lenBits)

/-- The operands of an `ENCA` line fit the operand registers, its capacity `2 * n` too (R93, R20). -/
def EncaLine.wf (p : Params) (c : EncaLine) : Bool :=
  decide (c.src < 2 ^ p.addrBits) && decide (2 * c.n < 2 ^ p.lenBits) && decide (c.dst < 2 ^ p.addrBits)

end Sys2Proof
end

