-- ==== Sys2Proof/Decode.lean ====
section
/-! DEFINITION. The decoder of a command byte, total and rejecting by name (30_encoding.md R84), the
encoder written from the same fields (R80 to R83), and the numbers of the registers (10_state.md R20). -/

namespace Sys2Proof

/-- Why a byte is no command (R84): the field that is reserved. -/
inductive Illegal where
  /-- `CMD[7:4]` is not 0. -/
  | reservedBits
  /-- `CMD[1:0]` is `0b00` or `0b11`. -/
  | reservedOp
  /-- `CMD[3:2]` is `0b11`. -/
  | reservedWidth
  deriving DecidableEq, Repr

/-- What the decoder reads from a byte. -/
inductive Decoded where
  | command (i : Instr)
  | illegal (r : Illegal)
  deriving DecidableEq, Repr

/-- The fields of a byte in format `C` (R80). -/
def commandWord (c : Byte) : CommandWord :=
  { rsv := c.extractLsb' 4 4, cwsel := c.extractLsb' 2 2, op := c.extractLsb' 0 2 }

/-- `CW = 2^CWSEL` (R82); the reserved selector has none. -/
def decodeWidth (sel : BitVec 2) : Option CharWidth :=
  if sel = 0 then some .one
  else if sel = 1 then some .two
  else if sel = 2 then some .four
  else none

/-- The operation a field `OP` selects (R81); the two reserved values have none. -/
def decodeOp (op : BitVec 2) : Option Op :=
  if op = 1 then some .dec
  else if op = 2 then some .enc
  else none

/-- The command of an operation at a width (R83). -/
def instrOf : Op → CharWidth → Instr
  | .dec, .one => .decC1
  | .dec, .two => .decC2
  | .dec, .four => .decC4
  | .enc, .one => .encC1
  | .enc, .two => .encC2
  | .enc, .four => .encC4

/-- `decode_cmd(c)` of R84: one of the six commands, or `illegal`. -/
def decode (c : Byte) : Decoded :=
  let w := commandWord c
  if w.rsvOk then
    match decodeOp w.op, decodeWidth w.cwsel with
    | some op, some cw => .command (instrOf op cw)
    | some _, none => .illegal .reservedWidth
    | none, _ => .illegal .reservedOp
  else .illegal .reservedBits

/-- The byte of a command word: `{RSV, CWSEL, OP}` (R80). -/
def CommandWord.toByte (w : CommandWord) : Byte := (w.rsv ++ w.cwsel ++ w.op).setWidth 8

/-- The command byte of R83. -/
def encode (i : Instr) : Byte := i.word.toByte

/-- The instruction the decoder reads from the table's word `w` of `nbits` bits. A command is one byte
(R90), the first one of the word. -/
def decodeTableWord (nbits w : Nat) : Option Instr :=
  match decode (BitVec.ofNat 8 (w % 2 ^ nbits)) with
  | .command i => some i
  | .illegal _ => none

/-- The number of a register (R20). -/
def Reg.number : Reg → Nat
  | .cmd => 0
  | .status => 1
  | .srcBase => 2
  | .srcLen => 3
  | .dstBase => 4
  | .dstCap => 5

/-- The register of a number; the register space has six (R20, R35). -/
def Reg.ofNumber : Nat → Option Reg
  | 0 => some .cmd
  | 1 => some .status
  | 2 => some .srcBase
  | 3 => some .srcLen
  | 4 => some .dstBase
  | 5 => some .dstCap
  | _ => none

end Sys2Proof
end

