-- ==== Sys2Proof/Machine/Tier.lean ====
section
/-! DEFINITION. The constants that the tier and the character width fix (00_scope.md R12, R13). The generic
tier has no vector engine and no block: its constants are 0 and no rule uses them. -/

namespace Sys2Proof.Machine

/-- `LANE_BITS` (R12). -/
def laneBits : Tier → Nat
  | .generic => 0
  | .narrow => 128
  | .wide => 256

/-- `BLOCK_CHARS` (R12): the characters of one block, at every width. -/
def blockChars : Tier → Nat
  | .generic => 0
  | .narrow => 16
  | .wide => 32

/-- `BLOCK_BYTES = BLOCK_CHARS / 2` (R12). -/
def blockBytes (t : Tier) : Nat := blockChars t / 2

/-- `SUBLOADS(CW) = CW` (R13): the registers one block of text fills. -/
def subloads (cw : CharWidth) : Nat := cw.bytes

/-- `Q = BLOCK_CHARS / cw` (42_vector_decode.md R140): the lanes of one sub-register. -/
def subLanes (t : Tier) (cw : CharWidth) : Nat := blockChars t / cw.bytes

end Sys2Proof.Machine
end

