-- ==== Sys2Proof/Machine/Lanes.lean ====
section
/-! DEFINITION. Registers as sequences of lanes (00_scope.md section 5, "Registers"): a register built
lane by lane, a bank of sub-registers built by character number, and the lane operations that stay inside
`8 * cw` bits. -/

namespace Sys2Proof.Machine

/-- The register of `n` lanes whose lane `k` is `f k`. -/
def lanes {α : Type} (n : Nat) (f : Nat → α) : List α := (List.range n).map f

/-- Lane `k` of a register of byte lanes. -/
def laneAt (x : List Byte) (k : Nat) : Byte := x.getD k 0

/-- The bank of sub-registers that holds the `BLOCK_CHARS` lanes `f 0, f 1, …`: lane `m` of sub-register
`j` is `f (j * Q + m)` (42_vector_decode.md R141, 43_vector_encode.md R173). -/
def bank (t : Tier) (cw : CharWidth) (f : Nat → Lane) : List (List Lane) :=
  lanes (subloads cw) fun j => lanes (subLanes t cw) fun m => f (j * subLanes t cw + m)

/-- `Z(k)`: lane `k mod Q` of sub-register `floor(k / Q)` (43_vector_encode.md, before section 1). -/
def bankAt (t : Tier) (cw : CharWidth) (r : List (List Lane)) (k : Nat) : Lane :=
  (r.getD (k / subLanes t cw) []).getD (k % subLanes t cw) 0

/-- The lane of `8 * cw` bits that is all ones. -/
def onesLane (cw : CharWidth) : Lane := BitVec.ofNat 32 (2 ^ (8 * cw.bytes) - 1)

/-- `add_w` on a lane of `8 * cw` bits (00_scope.md section 5, "Arithmetic"). -/
def addLane (cw : CharWidth) (a b : Lane) : Lane := (a + b) &&& onesLane cw

end Sys2Proof.Machine
end

