-- ==== Sys2Proof/Machine/State.lean ====
section
/-! DEFINITION. The state of the unit, of its caller memory and of the host's side of the interface
(10_state.md, 20_memory.md), the reasons a step can stop, and the state after reset (R37, R250). -/

namespace Sys2Proof.Machine

/-- Caller memory (20_memory.md R50): the listed bytes, addresses strictly rising, no entry equal to what
an unlisted address reads as (`Memory.wf`, Machine/Memory.lean). -/
abbrev Memory := List Host.Cell

/-- Where a running command stands, at the grain of 70_reset_and_hazards.md R263. -/
inductive Phase where
  /-- The capacity check is next. -/
  | check
  /-- `blocks` vector blocks are left; then `units` pairs (decode) or bytes (encode) of the scalar part,
  the next of them number `p`; then the final status. -/
  | work (blocks p units : Nat)
  deriving DecidableEq, Repr

/-- A started command: the operands it sampled (R27) and where it stands. -/
structure Job where
  instr : Instr
  src : Nat
  len : Nat
  dst : Nat
  cap : Nat
  phase : Phase
  deriving DecidableEq, Repr

/-- The `STATUS` register (R22). `STATUS.CODE` is the constructor; the unit holds the sampled operands of
a command exactly while it is `BUSY` (44_dispatcher_commands.md R208). Codes 6 and 7 do not exist (U11). -/
inductive Status where
  | idle
  | busy (j : Job)
  | ok
  | errCapacity
  | errInvalidChar
  | errIllegalCmd
  deriving DecidableEq, Repr

structure State where
  /-- `TIER`, `ADDR_BITS`, `LEN_BITS`, `FAIL_OUTPUT` of this unit (00_scope.md R15); no step changes them. -/
  params : Params
  /-- Register 0, `CMD` (R21). -/
  cmd : Byte
  /-- Register 1, `STATUS` (R22), with the running command (R27). -/
  status : Status
  /-- Register 2, `SRC_BASE` (R23), `ADDR_BITS` bits. -/
  srcBase : Nat
  /-- Register 3, `SRC_LEN` (R24), `LEN_BITS` bits. -/
  srcLen : Nat
  /-- Register 4, `DST_BASE` (R25), `ADDR_BITS` bits. -/
  dstBase : Nat
  /-- Register 5, `DST_CAP` (R26), `LEN_BITS` bits. -/
  dstCap : Nat
  /-- `IN_OFF` (R30), hidden. -/
  inOff : Nat
  /-- `OUT_OFF` (R30), hidden. -/
  outOff : Nat
  /-- The vector datapath registers (R32), hidden. -/
  vec : VecRegs
  /-- Caller memory (R50). -/
  mem : Memory
  /-- What the host will do next, oldest first (the host's side; log entry 5). -/
  queue : List HostAct
  /-- What the host's last read returned (the host's side; log entry 6). -/
  rdData : Option Nat
  /-- How many free values have been drawn (the model's own; log entry 7). -/
  draws : Nat
  deriving DecidableEq, Repr

/-- Why the machine stops with a fault. -/
inductive Fault where
  /-- A host `store` or `load` names an address outside the `2^ADDR_BITS` bytes of caller memory (R50).
  Raised by the host's memory accesses only. Safe: the spec gives no such byte. -/
  | noSuchAddress
  deriving DecidableEq, Repr

/-- Why the model gives a step no meaning. -/
inductive Refusal where
  /-- An instruction without a meaning yet. Raised by no arm. Safe. -/
  | notModelled (mnemonic : String)
  /-- A view of the command passes the top of caller memory (20_memory.md R58: "a model refuses it").
  Raised at the start of a command. Safe. -/
  | viewWraps
  /-- The views of the command overlap (20_memory.md R59: "a model refuses it"). Raised at the start of a
  command. Safe. -/
  | viewsOverlap
  /-- The host writes a view, or reads the destination view, of a running command
  (70_reset_and_hazards.md R256: "A model refuses executions that break this rule"). Raised by the host's
  memory accesses. Safe. -/
  | bufferInUse
  deriving DecidableEq, Repr

/-- The value the model names for the vector datapath registers at reset: every lane 0, four sub-registers
in each bank. DESIGN CHOICE (log entry 3): R37 leaves them unspecified. -/
def resetVec (t : Tier) : VecRegs :=
  let bytes : List Byte := lanes (blockChars t) fun _ => 0
  let half : List Byte := lanes (blockBytes t) fun _ => 0
  let wide : List (List Lane) := lanes 4 fun _ => lanes (blockChars t) fun _ => 0
  { w := wide, mr := wide, x := bytes, m0 := bytes, m1 := bytes, m2 := bytes, h := half, l := half,
    p := half, b := half, e := bytes, z := wide, g := wide }

/-- A unit with parameters `p` after reset (R37, R250): six registers 0, `STATUS.CODE = IDLE`. `IN_OFF`,
`OUT_OFF` and the vector registers, which R37 leaves unspecified, hold 0 (DESIGN CHOICE, log entry 3). -/
def State.resetOf (p : Params) : State :=
  { params := p
    cmd := 0
    status := .idle
    srcBase := 0
    srcLen := 0
    dstBase := 0
    dstCap := 0
    inOff := 0
    outOff := 0
    vec := resetVec p.tier
    mem := []
    queue := []
    rdData := none
    draws := 0 }

/-- The machine right after reset, with the parameters of log entry 1. -/
def State.reset : State := State.resetOf Config.resetParams

end Sys2Proof.Machine
end

