-- ==== Sys2Proof/Machine/Memory.lean ====
section
/-! DEFINITION. Caller memory: reading and writing one byte (the canonical form of the list is `Memory.wf`),
and the little-endian accesses `MemRead` and `MemWrite` built on them (20_memory.md R54). -/

namespace Sys2Proof.Machine

/-- What a byte of caller memory that nothing has written reads as. DESIGN CHOICE (log entry 2): the spec
gives caller memory no contents after power-on. -/
def unlistedByte : Byte := 0

/-- The byte at an address. -/
def Memory.read (m : Memory) (a : Nat) : Byte :=
  match m with
  | [] => unlistedByte
  | c :: rest => if c.1 = a then c.2 else Memory.read rest a

/-- The list without the address `a`. -/
def Memory.erase (m : Memory) (a : Nat) : Memory :=
  match m with
  | [] => []
  | c :: rest => if c.1 = a then Memory.erase rest a else c :: Memory.erase rest a

/-- The list with the entry `(a, b)` put before the first greater address. -/
def Memory.insert (m : Memory) (a : Nat) (b : Byte) : Memory :=
  match m with
  | [] => [(a, b)]
  | c :: rest => if a < c.1 then (a, b) :: c :: rest else c :: Memory.insert rest a b

/-- The memory with the byte `b` at address `a`; the canonical form is kept. -/
def Memory.write (m : Memory) (a : Nat) (b : Byte) : Memory :=
  if b = unlistedByte then m.erase a else (m.erase a).insert a b

/-- Every listed address is above `lo`, addresses rise, and no listed byte is what an unlisted one reads as. -/
def Memory.wfFrom (lo : Nat) (m : Memory) : Bool :=
  match m with
  | [] => true
  | c :: rest => decide (lo ≤ c.1) && decide (c.2 ≠ unlistedByte) && Memory.wfFrom (c.1 + 1) rest

/-- The canonical form: equal memories are equal lists. -/
def Memory.wf (m : Memory) : Bool := Memory.wfFrom 0 m

/-- `MemRead(addr, n)` (R54): the sum of `Mem[addr + j] * 2^(8*j)`. -/
def memRead (m : Memory) (a : Nat) : Nat → Nat
  | 0 => 0
  | n + 1 => (m.read a).toNat + 256 * memRead m (a + 1) n

/-- `MemWrite(addr, n, v)` (R54): `Mem[addr + j] <- v[8*j+7 : 8*j]`. -/
def memWrite (m : Memory) (a : Nat) : Nat → Nat → Memory
  | 0, _ => m
  | n + 1, v => memWrite (m.write a (BitVec.ofNat 8 v)) (a + 1) n (v / 256)

/-- `n` freely drawn bytes from address `a` on, the first of them draw number `d` (60_exceptions.md R228). -/
def memFree (m : Memory) (a d : Nat) : Nat → Memory
  | 0 => m
  | n + 1 => memFree (m.write a (Config.freeByte d)) (a + 1) (d + 1) n

end Sys2Proof.Machine
end

