-- ==== Sys2Proof/Machine/Operands.lean ====
section
/-! DEFINITION. The operands of a command: the source view and the destination view (20_memory.md R51 to
R56), their element sizes (R53), and the accesses `SrcRead` and `DstWrite`. Addresses and lengths are
natural numbers (10_state.md R29), so nothing wraps. -/

namespace Sys2Proof.Machine

/-- `ES_src` (R53). -/
def esSrc (i : Instr) : Nat :=
  match i.op with
  | .dec => i.cw.bytes
  | .enc => 1

/-- `ES_dst` (R53). -/
def esDst (i : Instr) : Nat :=
  match i.op with
  | .dec => 1
  | .enc => i.cw.bytes

/-- The byte address of source element `k` (R51). -/
def Job.srcAddr (j : Job) (k : Nat) : Nat := j.src + k * esSrc j.instr

/-- The byte address of destination element `k` (R52). -/
def Job.dstAddr (j : Job) (k : Nat) : Nat := j.dst + k * esDst j.instr

/-- The end of the source view (R51): the first byte address after it. -/
def Job.srcEnd (j : Job) : Nat := j.srcAddr j.len

/-- The end of the destination view (R52). -/
def Job.dstEnd (j : Job) : Nat := j.dstAddr j.cap

/-- The byte address lies in the source view. -/
def Job.inSrc (j : Job) (a : Nat) : Bool := decide (j.src ≤ a) && decide (a < j.srcEnd)

/-- The byte address lies in the destination view. -/
def Job.inDst (j : Job) (a : Nat) : Bool := decide (j.dst ≤ a) && decide (a < j.dstEnd)

/-- `SrcRead(k)` (R55): the value of source element `k`. -/
def srcRead (j : Job) (m : Memory) (k : Nat) : Nat := memRead m (j.srcAddr k) (esSrc j.instr)

/-- The value that destination element `k` holds: what a host reads there (R52, R54). -/
def dstRead (j : Job) (m : Memory) (k : Nat) : Nat := memRead m (j.dstAddr k) (esDst j.instr)

/-- `DstWrite(k, v)` (R56). -/
def dstWrite (j : Job) (m : Memory) (k v : Nat) : Memory := memWrite m (j.dstAddr k) (esDst j.instr) v

/-- `DstWrite(k0, v0)`, `DstWrite(k0 + 1, v1)`, … in ascending order: the store of a block
(42_vector_decode.md R153, 43_vector_encode.md R177). -/
def dstWriteAll (j : Job) (m : Memory) (k0 : Nat) : List Nat → Memory
  | [] => m
  | v :: vs => dstWriteAll j (dstWrite j m k0 v) (k0 + 1) vs

end Sys2Proof.Machine
end

