-- ==== Sys2Proof/Machine/Flags.lean ====
section
/-! DEFINITION. The status word and every predicate a command tests: `STATUS.CODE` (10_state.md R22), the
capacity checks (41_scalar_engine.md R121, R127), and the conditions on the views that the unit does not
check (20_memory.md R58, R59). The unit has no other flag (R31). -/

namespace Sys2Proof.Machine

/-- `STATUS.CODE` (R22, 60_exceptions.md R221). -/
def Status.code : Status → BitVec 3
  | .idle => 0
  | .busy _ => 1
  | .ok => 2
  | .errCapacity => 3
  | .errInvalidChar => 4
  | .errIllegalCmd => 5

/-- The `STATUS` register as a host reads it: `STATUS[2:0] = CODE`, `STATUS[7:3]` read as 0 (R22). -/
def Status.toByte (st : Status) : Byte := st.code.setWidth 8

/-- `STATUS.CODE = BUSY` (R22). -/
def Status.isBusy : Status → Bool
  | .idle => false
  | .busy _ => true
  | .ok => false
  | .errCapacity => false
  | .errInvalidChar => false
  | .errIllegalCmd => false

/-- The condition of CapacityError (R121 for decode, R127 for encode), for `n` source elements and a
destination of `cap`. -/
def capacityShort (op : Op) (n cap : Nat) : Bool :=
  match op with
  | .dec => decide (cap * 2 < n)
  | .enc => decide (cap < n * 2)

/-- Both views lie inside caller memory (R58). -/
def Job.viewsInside (p : Params) (j : Job) : Bool :=
  decide (j.srcEnd ≤ 2 ^ p.addrBits) && decide (j.dstEnd ≤ 2 ^ p.addrBits)

/-- No byte lies in both views (R59). -/
def Job.viewsDisjoint (j : Job) : Bool :=
  decide (j.srcEnd ≤ j.src) || decide (j.dstEnd ≤ j.dst) || decide (j.srcEnd ≤ j.dst) ||
    decide (j.dstEnd ≤ j.src)

/-- The refusal that the views of a command call for, if any (R58, R59). DESIGN CHOICE of the
order (log entry 9). -/
def viewRefusal (p : Params) (j : Job) : Option Refusal :=
  if j.viewsInside p then
    if j.viewsDisjoint then none else some .viewsOverlap
  else some .viewWraps

end Sys2Proof.Machine
end

