-- ==== Sys2Proof/Machine/Tables.lean ====
section
/-! DEFINITION. The Lookup Tables `C2N` and `N2C` (40_lookup_tables.md R100 to R104). They are read-only
memories (10_state.md R34): constants here, and no field of State. -/

namespace Sys2Proof.Machine

/-- The marker of an entry that is no hex digit (R103). -/
def INVALID : Byte := 0xFF

/-- `C2N[i]` (R100). -/
def c2n (i : Byte) : Byte :=
  if 0x30 ≤ i ∧ i ≤ 0x39 then i - 0x30
  else if 0x41 ≤ i ∧ i ≤ 0x46 then i - 0x37
  else if 0x61 ≤ i ∧ i ≤ 0x66 then i - 0x57
  else INVALID

/-- `N2C[n]` (R104). -/
def n2c (n : BitVec 4) : Byte :=
  if n ≤ 9 then 0x30 + n.setWidth 8 else 0x57 + n.setWidth 8

/-- `LOOKUP(cw, u)` (R102): the range test first, the table on the low byte after. -/
def lookup (cw : CharWidth) (u : Nat) : Byte :=
  if 1 < cw.bytes ∧ 0xFF < u then INVALID else c2n (BitVec.ofNat 8 u)

end Sys2Proof.Machine
end

