-- ==== Sys2Proof/Machine/Ops.lean ====
section
/-! DEFINITION. The operations every command shares: starting (10_state.md R27), raising an error
(60_exceptions.md R226, the unit's only exception: no vector, no saved context, no return, R231, R232),
ending without one (44_dispatcher_commands.md R190), and running units of work in ascending order. -/

namespace Sys2Proof.Machine

/-- Whether the unit runs a command: `STATUS.CODE = BUSY`. -/
def State.isBusy (s : State) : Bool := s.status.isBusy

/-- The operands that a command samples from the registers (R27). -/
def sampleJob (i : Instr) (s : State) : Job :=
  { instr := i, src := s.srcBase, len := s.srcLen, dst := s.dstBase, cap := s.dstCap, phase := .check }

/-- The start of a legal command: `STATUS.CODE <- BUSY` with the sampled operands (R27), both offsets 0
(R30). -/
def startCommand (j : Job) (s : State) : State := { s with status := .busy j, inOff := 0, outOff := 0 }

/-- The hidden registers after a command has ended: `any value` (R30, R33, R226, U13). -/
def forgetHidden (s : State) : State :=
  { s with
    inOff := Config.freeOffset s.draws
    outOff := Config.freeOffset (s.draws + 1)
    vec := Config.freeVec s.draws
    draws := s.draws + 2 }

/-- The end of a command with the given status; the hidden registers become meaningless (R226, R208). -/
def endCommand (st : Status) (s : State) : State := forgetHidden { s with status := st }

/-- `STATUS.CODE <- OK` at the end of a command (R190). -/
def finish (s : State) : State := endCommand .ok s

/-- `raise CapacityError()` (R222, R226). -/
def raiseCapacity (s : State) : State := endCommand .errCapacity s

/-- `d[k0 .. DST_CAP)` as freely drawn values, for a decode command: its destination elements are bytes
(R228, R53). -/
def freeDst (j : Job) (k0 : Nat) (s : State) : State :=
  { s with
    mem := memFree s.mem (j.dst + k0) s.draws (j.cap - k0)
    draws := s.draws + (j.cap - k0) }

/-- `raise InvalidCharacterError()` (R223, R226). Under `FAIL_OUTPUT = contract` the destination from the
failing processing block on holds any value (R228): `OUT_OFF` is then `W_guar`, the bytes that the blocks
wholly before the failing one produced. -/
def raiseInvalidChar (j : Job) (s : State) : State :=
  match s.params.failOutput with
  | .reference => endCommand .errInvalidChar s
  | .contract => endCommand .errInvalidChar (freeDst j s.outOff s)

/-- What a unit of work leaves: the command goes on, or it has ended with an error. -/
inductive Flow where
  | go (s : State)
  | stop (s : State)
  deriving DecidableEq, Repr

/-- The next unit of work is done only when no error has ended the command (R226). -/
def Flow.andThen (x : Flow) (f : State → Flow) : Flow :=
  match x with
  | .go s => f s
  | .stop s => .stop s

/-- The state of a command at its end: `STATUS.CODE <- OK` unless an error has ended it (R190). -/
def Flow.close (x : Flow) : State :=
  match x with
  | .go s => finish s
  | .stop s => s

/-- Units `p, p + 1, …`, `n` of them, in ascending order (20_memory.md R66). -/
def repeatUnits (f : Nat → State → Flow) : Nat → Nat → State → Flow
  | 0, _, s => .go s
  | n + 1, p, s => (f p s).andThen (repeatUnits f n (p + 1))

/-- The frame of a command issued to the unit (R190): ignored while `BUSY` (R27); refused where the views
break R58 or R59; else started and run by `body` to its end. -/
def issue (i : Instr) (body : Job → State → State) (s : State) : Host.Outcome State Fault Refusal :=
  if s.isBusy then .next s
  else
    match viewRefusal s.params (sampleJob i s) with
    | some r => .refused r
    | none => .next (body (sampleJob i s) (startCommand (sampleJob i s) s))

end Sys2Proof.Machine
end

