-- ==== Sys2Proof/Machine/Scalar.lean ====
section
/-! DEFINITION. The Scalar Engine (41_scalar_engine.md): one pair of `SDEC`, one byte of `SENC`, and the
two operations as their rules write them. -/

namespace Sys2Proof.Machine

/-- Pair `p` of `SDEC(cw, s0, _, d0, _)` (R122, R123): both characters are looked up, then the byte is
written or the command fails. -/
def sdecPair (j : Job) (s0 d0 p : Nat) (s : State) : Flow :=
  let hi := lookup j.instr.cw (srcRead j s.mem (s0 + 2 * p))
  let lo := lookup j.instr.cw (srcRead j s.mem (s0 + 2 * p + 1))
  if hi = INVALID ∨ lo = INVALID then .stop (raiseInvalidChar j s)
  else .go { s with mem := dstWrite j s.mem (d0 + p) ((hi <<< 4) ||| lo).toNat }

/-- `SDEC(cw, s0, n, d0, cap)` (R120): the capacity check, then `floor(n / 2)` pairs; an unpaired last
character is not looked at (R124). -/
def sdec (j : Job) (s0 n d0 cap : Nat) (s : State) : Flow :=
  if capacityShort .dec n cap then .stop (raiseCapacity s)
  else repeatUnits (sdecPair j s0 d0) (n / 2) 0 s

/-- The code unit of a nibble: `zext_(8*cw)(N2C[n])` (R126); its value does not depend on `cw`. -/
def charOf (n : BitVec 4) : Nat := (n2c n).toNat

/-- Byte `p` of `SENC(cw, s0, _, d0, _)` (R128): the high nibble's character, then the low nibble's. -/
def sencByte (j : Job) (s0 d0 p : Nat) (s : State) : Flow :=
  let b : Byte := BitVec.ofNat 8 (srcRead j s.mem (s0 + p))
  let m1 := dstWrite j s.mem (d0 + 2 * p) (charOf (b.extractLsb' 4 4))
  .go { s with mem := dstWrite j m1 (d0 + 2 * p + 1) (charOf (b.extractLsb' 0 4)) }

/-- `SENC(cw, s0, n, d0, cap)` (R126). -/
def senc (j : Job) (s0 n d0 cap : Nat) (s : State) : Flow :=
  if capacityShort .enc n cap then .stop (raiseCapacity s)
  else repeatUnits (sencByte j s0 d0) n 0 s

end Sys2Proof.Machine
end

