-- ==== Sys2Proof/Machine/VectorDecode.lean ====
section
/-! DEFINITION. The vector decode kernel and the wide-character normaliser (42_vector_decode.md R140 to
R153), step by step on the registers of 10_state.md R32. `rd k` stands for `SrcRead(k)`. -/

namespace Sys2Proof.Machine

/-- Step 1, load (R142): `cw` registers, one code unit a lane. -/
def loadText (t : Tier) (cw : CharWidth) (rd : Nat → Nat) (i0 : Nat) (v : VecRegs) : VecRegs :=
  { v with w := bank t cw fun k => BitVec.ofNat 32 (rd (i0 + k)) }

/-- Step 2, first part, the range test's masks (R144): all ones where the code unit exceeds 0xFF. -/
def rangeMask (cw : CharWidth) (v : VecRegs) : VecRegs :=
  { v with mr := v.w.map fun r => r.map fun u => if 0xFF < u then onesLane cw else 0 }

/-- Some lane of some range mask is set (R144). -/
def rangeFails (v : VecRegs) : Bool := v.mr.any fun r => r.any fun m => m != 0

/-- Step 2, second part, the narrowing repack (R145): the low byte of every lane, order kept. -/
def repack (v : VecRegs) : VecRegs :=
  { v with x := v.w.flatten.map fun u => u.setWidth 8 }

/-- The lane condition of `SUBIF` (R146): `min - 1 < x < max + 1`, unsigned (R148). -/
def inRange (min max x : Byte) : Bool := decide (min - 1 < x) && decide (x < max + 1)

/-- The mask of `SUBIF(X, min, max, value)` (R146, R148). -/
def subIfMask (min max : Byte) (x : List Byte) : List Byte :=
  x.map fun a => if inRange min max a then 0xFF else 0x00

/-- The register of `SUBIF(X, min, max, value)` (R146). -/
def subIfLanes (min max value : Byte) (x : List Byte) : List Byte :=
  x.map fun a => if inRange min max a then a - value else a

/-- Step 3, the three applications in sequence (R147). -/
def classify (v : VecRegs) : VecRegs :=
  let x1 := subIfLanes 0x30 0x39 0x30 v.x
  let x2 := subIfLanes 0x41 0x46 0x37 x1
  let x3 := subIfLanes 0x61 0x66 0x57 x2
  { v with
    x := x3
    m0 := subIfMask 0x30 0x39 v.x
    m1 := subIfMask 0x41 0x46 x1
    m2 := subIfMask 0x61 0x66 x2 }

/-- `U <- M0 | M1 | M2` (R149). -/
def maskUnion (v : VecRegs) : List Byte :=
  List.zipWith (fun a b => a ||| b) (List.zipWith (fun a b => a ||| b) v.m0 v.m1) v.m2

/-- The validity test of the block (R149): the complement of the union is entirely zero. -/
def covered (v : VecRegs) : Bool := (maskUnion v).all fun u => ~~~u == 0

/-- Step 4, gather, shift and combine (R151, R152). -/
def gather (t : Tier) (v : VecRegs) : VecRegs :=
  let h := lanes (blockBytes t) fun i => laneAt v.x (2 * i)
  let l := lanes (blockBytes t) fun i => laneAt v.x (2 * i + 1)
  { v with h := h, l := l, p := lanes (blockBytes t) fun i => (laneAt h i <<< 4) ||| laneAt l i }

/-- Steps 1 to 4 of `VDEC_BLOCK` on the registers (R140), and whether the block passed both tests. -/
def vdecRegs (t : Tier) (cw : CharWidth) (rd : Nat → Nat) (i0 : Nat) (v : VecRegs) : VecRegs × Bool :=
  let v1 := loadText t cw rd i0 v
  let v2 := if 1 < cw.bytes then rangeMask cw v1 else v1
  if decide (1 < cw.bytes) && rangeFails v2 then (v2, false)
  else
    let v4 := classify (repack v2)
    if covered v4 then (gather t v4, true) else (v4, false)

/-- `VDEC_BLOCK(cw, i0, o0)` (R140): a block that fails stores nothing; one that passes stores `P` (R153). -/
def vdecBlock (j : Job) (i0 o0 : Nat) (s : State) : Flow :=
  let r := vdecRegs s.params.tier j.instr.cw (srcRead j s.mem) i0 s.vec
  if r.2 then .go { s with vec := r.1, mem := dstWriteAll j s.mem o0 (r.1.p.map BitVec.toNat) }
  else .stop (raiseInvalidChar j { s with vec := r.1 })

end Sys2Proof.Machine
end

