-- ==== Sys2Proof/Machine/VectorEncode.lean ====
section
/-! DEFINITION. The vector encode kernel (43_vector_encode.md R170 to R177), step by step on the registers
of 10_state.md R32. `rd k` stands for `SrcRead(k)`. -/

namespace Sys2Proof.Machine

/-- Step 1, load (R171): `BLOCK_BYTES` bytes. -/
def loadBytes (t : Tier) (rd : Nat → Nat) (i0 : Nat) (v : VecRegs) : VecRegs :=
  { v with b := lanes (blockBytes t) fun i => BitVec.ofNat 8 (rd (i0 + i)) }

/-- Step 2, expand (R172): every byte in two adjacent lanes, the shuffle `(0, 0, 1, 1, …)`. -/
def expand (t : Tier) (v : VecRegs) : VecRegs :=
  { v with e := lanes (blockChars t) fun k => laneAt v.b (k / 2) }

/-- Step 2, widen (R173): zero-extension to the code-unit width. -/
def widen (t : Tier) (cw : CharWidth) (v : VecRegs) : VecRegs :=
  { v with z := bank t cw fun k => (laneAt v.e k).setWidth 32 }

/-- Step 3 (R174): the high nibble in even lanes, the low nibble in odd lanes. -/
def nibbles (t : Tier) (cw : CharWidth) (v : VecRegs) : VecRegs :=
  { v with
    z := bank t cw fun k =>
      if k % 2 = 0 then (bankAt t cw v.z k >>> 4) &&& 0x0F else bankAt t cw v.z k &&& 0x0F }

/-- Step 4, the comparison with 9 (R176). -/
def overNine (t : Tier) (cw : CharWidth) (v : VecRegs) : VecRegs :=
  { v with g := bank t cw fun k => if 9 < bankAt t cw v.z k then onesLane cw else 0 }

/-- Step 4, the two additions (R176). -/
def toAscii (t : Tier) (cw : CharWidth) (v : VecRegs) : VecRegs :=
  { v with
    z := bank t cw fun k =>
      addLane cw (addLane cw (bankAt t cw v.z k) (0x27 &&& bankAt t cw v.g k)) 0x30 }

/-- Steps 1 to 4 of `VENC_BLOCK` on the registers (R170). -/
def vencRegs (t : Tier) (cw : CharWidth) (rd : Nat → Nat) (i0 : Nat) (v : VecRegs) : VecRegs :=
  toAscii t cw (overNine t cw (nibbles t cw (widen t cw (expand t (loadBytes t rd i0 v)))))

/-- `VENC_BLOCK(cw, i0, o0)` (R170): step 5 stores every lane of `Z` (R177). It raises no error. -/
def vencBlock (j : Job) (i0 o0 : Nat) (s : State) : Flow :=
  let v := vencRegs s.params.tier j.instr.cw (srcRead j s.mem) i0 s.vec
  .go { s with vec := v, mem := dstWriteAll j s.mem o0 (v.z.flatten.map BitVec.toNat) }

end Sys2Proof.Machine
end

