-- ==== Sys2Proof/Machine/Dispatcher.lean ====
section
/-! DEFINITION. The Dispatcher (44_dispatcher_commands.md R190 to R203): the two operations `DEC` and
`ENC` as their rules write them, for every tier. -/

namespace Sys2Proof.Machine

/-- Whether the unit has a vector engine (00_scope.md R10). -/
def hasVector : Tier → Bool
  | .generic => false
  | .narrow => true
  | .wide => true

/-- `IN_OFF` advances by the block's input, `OUT_OFF` by its output (10_state.md R30). -/
def advance (op : Op) (s : State) : State :=
  match op with
  | .dec => { s with inOff := s.inOff + blockChars s.params.tier, outOff := s.outOff + blockBytes s.params.tier }
  | .enc => { s with inOff := s.inOff + blockBytes s.params.tier, outOff := s.outOff + blockChars s.params.tier }

/-- One pass of the decode block loop (R194). -/
def decBlockUnit (j : Job) (s : State) : Flow :=
  (vdecBlock j s.inOff s.outOff s).andThen fun s1 => .go (advance .dec s1)

/-- One pass of the encode block loop (R202). -/
def encBlockUnit (j : Job) (s : State) : Flow :=
  (vencBlock j s.inOff s.outOff s).andThen fun s1 => .go (advance .enc s1)

/-- The decode tail (R196): fewer than 2 characters are dropped, not read. -/
def decTail (j : Job) (s : State) : Flow :=
  if 2 ≤ j.len - s.inOff then sdec j s.inOff (j.len - s.inOff) s.outOff (j.cap - s.outOff) s else .go s

/-- The encode tail, of any size (R203). -/
def encTail (j : Job) (s : State) : Flow :=
  senc j s.inOff (j.len - s.inOff) s.outOff (j.cap - s.outOff) s

/-- `DEC(cw)` (R193) in a vector tier, `SDEC(cw, 0, n, 0, cap)` in the generic tier (R192). -/
def dec (j : Job) (s : State) : State :=
  if hasVector s.params.tier then
    if capacityShort .dec j.len j.cap then raiseCapacity s
    else
      ((repeatUnits (fun _ => decBlockUnit j) (j.len / blockChars s.params.tier) 0 s).andThen
        (decTail j)).close
  else (sdec j 0 j.len 0 j.cap s).close

/-- `ENC(cw)` (R201) in a vector tier, `SENC(cw, 0, n, 0, cap)` in the generic tier (R192). -/
def enc (j : Job) (s : State) : State :=
  if hasVector s.params.tier then
    if capacityShort .enc j.len j.cap then raiseCapacity s
    else
      ((repeatUnits (fun _ => encBlockUnit j) (j.len / blockBytes s.params.tier) 0 s).andThen
        (encTail j)).close
  else (senc j 0 j.len 0 j.cap s).close

end Sys2Proof.Machine
end

