-- ==== Sys2Proof/Machine/DecodeCommands.lean ====
section
/-! DEFINITION. The meanings of the three decode commands (44_dispatcher_commands.md R197 to R199). -/

namespace Sys2Proof.Machine

/-- `DEC.C1` (R197): `DEC(1)`. -/
def execDecC1 (s : State) : Host.Outcome State Fault Refusal := issue .decC1 dec s

/-- `DEC.C2` (R198): `DEC(2)`. -/
def execDecC2 (s : State) : Host.Outcome State Fault Refusal := issue .decC2 dec s

/-- `DEC.C4` (R199): `DEC(4)`. -/
def execDecC4 (s : State) : Host.Outcome State Fault Refusal := issue .decC4 dec s

end Sys2Proof.Machine
end

