-- ==== Sys2Proof/Machine/EncodeCommands.lean ====
section
/-! DEFINITION. The meanings of the three encode commands (44_dispatcher_commands.md R205 to R207). -/

namespace Sys2Proof.Machine

/-- `ENC.C1` (R205): `ENC(1)`. -/
def execEncC1 (s : State) : Host.Outcome State Fault Refusal := issue .encC1 enc s

/-- `ENC.C2` (R206): `ENC(2)`. -/
def execEncC2 (s : State) : Host.Outcome State Fault Refusal := issue .encC2 enc s

/-- `ENC.C4` (R207): `ENC(4)`. -/
def execEncC4 (s : State) : Host.Outcome State Fault Refusal := issue .encC4 enc s

end Sys2Proof.Machine
end

