-- ==== Sys2Proof/Machine/Dispatch.lean ====
section
/-! DEFINITION. The meaning of every command, one arm each. -/

namespace Sys2Proof.Machine

def exec (i : Instr) (s : State) : Host.Outcome State Fault Refusal :=
  match i with
  | .decC1 => Sys2Proof.Machine.execDecC1 s
  | .decC2 => Sys2Proof.Machine.execDecC2 s
  | .decC4 => Sys2Proof.Machine.execDecC4 s
  | .encC1 => Sys2Proof.Machine.execEncC1 s
  | .encC2 => Sys2Proof.Machine.execEncC2 s
  | .encC4 => Sys2Proof.Machine.execEncC4 s

end Sys2Proof.Machine
end

