-- ==== Sys2Proof/Machine/Unit.lean ====
section
/-! DEFINITION. A running command at the finest grain the rules fix (70_reset_and_hazards.md R263): one
step for the capacity check, one for each vector block, one for each pair or byte of the scalar part, one
for the final status. The work of a step is the same operation that the whole command is made of. -/

namespace Sys2Proof.Machine

/-- The input elements of one block: characters for decode, bytes for encode (R194, R202). -/
def blockInput (op : Op) (t : Tier) : Nat :=
  match op with
  | .dec => blockChars t
  | .enc => blockBytes t

/-- `full` (R194, R202); the generic tier has no block (R192). -/
def fullBlocks (op : Op) (t : Tier) (n : Nat) : Nat :=
  if hasVector t then n / blockInput op t else 0

/-- The scalar units after the blocks (R196, R203): pairs for decode, bytes for encode. -/
def tailUnits (op : Op) (t : Tier) (n : Nat) : Nat :=
  let tail := n - fullBlocks op t n * blockInput op t
  match op with
  | .dec => tail / 2
  | .enc => tail

/-- One vector block of the running command. -/
def blockUnit (j : Job) (s : State) : Flow :=
  match j.instr.op with
  | .dec => decBlockUnit j s
  | .enc => encBlockUnit j s

/-- Scalar unit `p` of the running command. -/
def scalarUnit (j : Job) (p : Nat) (s : State) : Flow :=
  match j.instr.op with
  | .dec => sdecPair j s.inOff s.outOff p s
  | .enc => sencByte j s.inOff s.outOff p s

/-- The command goes on in phase `ph`, unless an error has ended it. -/
def Flow.continueIn (x : Flow) (j : Job) (ph : Phase) : State :=
  match x with
  | .go s => { s with status := .busy { j with phase := ph } }
  | .stop s => s

/-- One step of the running command `j` (R263). -/
def tick (j : Job) (s : State) : State :=
  match j.phase with
  | .check =>
    if capacityShort j.instr.op j.len j.cap then raiseCapacity s
    else
      (Flow.go s).continueIn j
        (.work (fullBlocks j.instr.op s.params.tier j.len) 0 (tailUnits j.instr.op s.params.tier j.len))
  | .work (b + 1) p u => (blockUnit j s).continueIn j (.work b p u)
  | .work 0 p (u + 1) => (scalarUnit j p s).continueIn j (.work 0 (p + 1) u)
  | .work 0 _ 0 => finish s

/-- The unit's own step: one step of the running command; nothing between commands (60_exceptions.md R242). -/
def unitTurn (s : State) : State :=
  match s.status with
  | .busy j => tick j s
  | .idle => s
  | .ok => s
  | .errCapacity => s
  | .errInvalidChar => s
  | .errIllegalCmd => s

/-- `k` steps of the unit with no act of the host between them. -/
def unitTurns : Nat → State → State
  | 0, s => s
  | k + 1, s => unitTurns k (unitTurn s)

/-- The steps of a successful command: `1 + full + tail_units + 1` (R263). -/
def commandSteps (i : Instr) (t : Tier) (n : Nat) : Nat := 1 + fullBlocks i.op t n + tailUnits i.op t n + 1

end Sys2Proof.Machine
end

