-- ==== Sys2Proof/Machine/HostAccess.lean ====
section
/-! DEFINITION. What the host and the platform do to the unit: register reads and writes (10_state.md R20
to R27), accesses to caller memory (70_reset_and_hazards.md R256), waiting (30_encoding.md R92), reset
(R250, R251), and the expansion of the command lines (R92, R93). -/

namespace Sys2Proof.Machine

/-- A host read of a register: no side effect, `BUSY` or not (R21, R22, R27). -/
def readReg (r : Reg) (s : State) : Nat :=
  match r with
  | .cmd => s.cmd.toNat
  | .status => s.status.toByte.toNat
  | .srcBase => s.srcBase
  | .srcLen => s.srcLen
  | .dstBase => s.dstBase
  | .dstCap => s.dstCap

/-- The bits of a value that a register holds (R20); DESIGN CHOICE for a wider value (log entry 14). -/
def fitReg (p : Params) (r : Reg) (v : Nat) : Nat := v % 2 ^ r.width p

/-- IllegalCommand (60_exceptions.md R225): the byte stays in `CMD`, nothing starts. -/
def raiseIllegalCmd (s : State) : State := { s with status := .errIllegalCmd }

/-- The start of a decoded command whose steps are taken one by one (R27, R263). -/
def beginCommand (i : Instr) (s : State) : Host.Outcome State Fault Refusal :=
  match viewRefusal s.params (sampleJob i s) with
  | some r => .refused r
  | none => .next (startCommand (sampleJob i s) s)

/-- A write of `CMD` while the unit is not `BUSY` (R27): the byte is stored; a legal command is taken up by
`run`, an illegal byte raises IllegalCommand. -/
def writeCmd (run : Instr → State → Host.Outcome State Fault Refusal) (b : Byte) (s : State) :
    Host.Outcome State Fault Refusal :=
  match decode b with
  | .command i => run i { s with cmd := b }
  | .illegal _ => .next (raiseIllegalCmd { s with cmd := b })

/-- A bare host write of a register (R20 to R27): ignored while `BUSY`; `STATUS` ignores every write (R22). -/
def writeReg (r : Reg) (v : Nat) (s : State) : Host.Outcome State Fault Refusal :=
  if s.isBusy then .next s
  else
    match r with
    | .cmd => writeCmd beginCommand (BitVec.ofNat 8 v) s
    | .status => .next s
    | .srcBase => .next { s with srcBase := fitReg s.params .srcBase v }
    | .srcLen => .next { s with srcLen := fitReg s.params .srcLen v }
    | .dstBase => .next { s with dstBase := fitReg s.params .dstBase v }
    | .dstCap => .next { s with dstCap := fitReg s.params .dstCap v }

/-- The command form of R92: the write of `CMD`, then the wait. While `BUSY` the write is ignored (R27) and
the wait remains (DESIGN CHOICE, log entry 8). -/
def callCmd (b : Byte) (s : State) : Host.Outcome State Fault Refusal :=
  if s.isBusy then .next { s with queue := .wait :: s.queue } else writeCmd exec b s

/-- The address lies in a view the host may not write now (R256). -/
def storeForbidden (s : State) (a : Nat) : Bool :=
  match s.status with
  | .busy j => j.inSrc a || j.inDst a
  | .idle => false
  | .ok => false
  | .errCapacity => false
  | .errInvalidChar => false
  | .errIllegalCmd => false

/-- The address lies in the view the host may not read now (R256). -/
def loadForbidden (s : State) (a : Nat) : Bool :=
  match s.status with
  | .busy j => j.inDst a
  | .idle => false
  | .ok => false
  | .errCapacity => false
  | .errInvalidChar => false
  | .errIllegalCmd => false

/-- A host store of one byte (R50, R256; log entry 21). -/
def hostStore (a : Nat) (b : Byte) (s : State) : Host.Outcome State Fault Refusal :=
  if a < 2 ^ s.params.addrBits then
    if storeForbidden s a then .refused .bufferInUse else .next { s with mem := s.mem.write a b }
  else .fault .noSuchAddress

/-- A host load of one byte (R50, R256; log entry 21). -/
def hostLoad (a : Nat) (s : State) : Host.Outcome State Fault Refusal :=
  if a < 2 ^ s.params.addrBits then
    if loadForbidden s a then .refused .bufferInUse
    else .next { s with rdData := some (s.mem.read a).toNat }
  else .fault .noSuchAddress

/-- What reset leaves of caller memory: unchanged (R37); where it hits a running command, the destination
view holds what was written (R251), which under `FAIL_OUTPUT = contract` is any value (R251, U15;
DESIGN CHOICE of the parameter, log entry 13). -/
def resetMemory (s : State) : State :=
  match s.status, s.params.failOutput with
  | .busy j, .contract =>
    { s with
      mem := memFree s.mem j.dst s.draws (j.dstEnd - j.dst)
      draws := s.draws + (j.dstEnd - j.dst) }
  | .busy _, .reference => s
  | .idle, _ => s
  | .ok, _ => s
  | .errCapacity, _ => s
  | .errInvalidChar, _ => s
  | .errIllegalCmd, _ => s

/-- The platform applies reset (R250): the registers as `State.resetOf` has them; a running command is
abandoned (R251); caller memory and the host's own side stay. -/
def applyReset (s : State) : State :=
  let s1 := resetMemory s
  { State.resetOf s.params with mem := s1.mem, queue := s.queue, rdData := s.rdData, draws := s1.draws }

/-- One act of the host, taken from the head of its queue. -/
def hostTurn (a : HostAct) (s : State) : Host.Outcome State Fault Refusal :=
  match a with
  | .call b => callCmd b s
  | .wr r v => writeReg r v s
  | .rd r => .next { s with rdData := some (readReg r s) }
  | .store a b => hostStore a b s
  | .load a => hostLoad a s
  | .idle => .next (unitTurn s)
  | .wait => if s.isBusy then .next (unitTurn { s with queue := .wait :: s.queue }) else .next s
  | .reset => .next (applyReset s)

/-- `MNEMONIC src, n, dst, cap` (R92): the four operand writes, then the `CMD` write and the wait. -/
def commandLineActs (c : CommandLine) : List HostAct :=
  [.wr .srcBase c.src, .wr .srcLen c.n, .wr .dstBase c.dst, .wr .dstCap c.cap, .call (encode c.instr)]

/-- `ENCA.Cw src, n` (R93): `ENC.Cw src, n, dst, 2 * n` on the buffer the allocator gave. -/
def encaCommandLine (c : EncaLine) : CommandLine :=
  { instr := instrOf .enc c.cw, src := c.src, n := c.n, dst := c.dst, cap := 2 * c.n }

end Sys2Proof.Machine
end

