-- ==== Sys2Proof/Machine/Step.lean ====
section
/-! DEFINITION. One step of the machine: the host's next act, or, when the host does nothing, the unit's own
step. The unit fetches nothing (10_state.md R30): a command reaches it as a byte the host writes to `CMD`. -/

namespace Sys2Proof.Machine

/-- One step. -/
def step (s : State) : Host.Outcome State Fault Refusal :=
  match s.queue with
  | [] => .next (unitTurn s)
  | a :: rest => hostTurn a { s with queue := rest }

/-- The state in which the very next step is the host's command form of the table's word `w`
(30_encoding.md R92). A unit that is `BUSY` would ignore the byte (R27), so a running command is dropped
(log entry 12). -/
def State.withFetchWord (s : State) (nbits w : Nat) : State :=
  { s with
    queue := .call (BitVec.ofNat 8 (w % 2 ^ nbits)) :: s.queue
    status := if s.isBusy then .idle else s.status }

end Sys2Proof.Machine
end

