-- ==== Sys2Proof/Safety.lean ====
section
/-! DEFINITION. The terms claims use: what the views and the converted data of a command are, what a host
owes the unit before its next act, when a step is safe, and the invariant of the machine. -/

namespace Sys2Proof.Machine

/-- The command can be issued: the unit is not `BUSY` (10_state.md R27) and the views keep 20_memory.md R58
and R59. -/
abbrev Ready (i : Instr) (s : State) : Prop :=
  s.isBusy = false ∧ viewRefusal s.params (sampleJob i s) = none

/-- Source element `k` of the command (R55). -/
def srcElem (i : Instr) (s : State) (k : Nat) : Nat := srcRead (sampleJob i s) s.mem k

/-- Destination element `k` of the command issued in `s`, as memory `m` holds it. -/
def dstElem (i : Instr) (s : State) (m : Memory) (k : Nat) : Nat := dstRead (sampleJob i s) m k

/-- `LOOKUP(cw, c[k])` (40_lookup_tables.md R102). -/
def nibbleOf (i : Instr) (s : State) (k : Nat) : Byte := lookup i.cw (srcElem i s k)

/-- `byte(p)` of 60_exceptions.md R227: `(LOOKUP(cw, c[2p]) << 4) | LOOKUP(cw, c[2p+1])`. -/
def pairByte (i : Instr) (s : State) (p : Nat) : Nat :=
  ((nibbleOf i s (2 * p) <<< 4) ||| nibbleOf i s (2 * p + 1)).toNat

/-- Every validated character is a hex digit: the first `2 * floor(n / 2)` (60_exceptions.md R223). -/
abbrev AllValid (i : Instr) (s : State) : Prop :=
  ∀ k < 2 * (s.srcLen / 2), nibbleOf i s k ≠ INVALID

/-- `e` is the least index of an invalid validated character (60_exceptions.md R227). -/
abbrev FirstInvalid (i : Instr) (s : State) (e : Nat) : Prop :=
  e < 2 * (s.srcLen / 2) ∧ nibbleOf i s e = INVALID ∧ ∀ k < e, nibbleOf i s k ≠ INVALID

/-- The character of element `k` that an encode command writes: the high nibble's at even `k`, the low
nibble's at odd `k` (41_scalar_engine.md R129). -/
def charAt (i : Instr) (s : State) (k : Nat) : Nat :=
  let b : Byte := BitVec.ofNat 8 (srcElem i s (k / 2))
  if k % 2 = 0 then (n2c (b.extractLsb' 4 4)).toNat else (n2c (b.extractLsb' 0 4)).toNat

/-- `W_ref` of 60_exceptions.md R227. -/
def wRef (t : Tier) (n e : Nat) : Nat :=
  match t with
  | .generic => e / 2
  | .narrow => if e < n / 16 * 16 then e / 16 * 8 else e / 2
  | .wide => if e < n / 32 * 32 then e / 32 * 16 else e / 2

/-- `W_guar` of 60_exceptions.md R228. -/
def wGuar (t : Tier) (e : Nat) : Nat :=
  match t with
  | .generic => 0
  | .narrow => e / 16 * 8
  | .wide => e / 32 * 16

/-- The two memories hold the same byte at every address outside `lo .. hi - 1`. -/
abbrev SameOutside (lo hi : Nat) (m m' : Memory) : Prop :=
  ∀ a, a < lo ∨ hi ≤ a → m'.read a = m.read a

/-- The destination elements a successful command writes (20_memory.md R60): `floor(n / 2)` for decode,
`2 * n` for encode. -/
def outCount (i : Instr) (s : State) : Nat :=
  match i.op with
  | .dec => s.srcLen / 2
  | .enc => 2 * s.srcLen

/-- The source elements a command reads at most (20_memory.md R60): the first `2 * floor(n / 2)` for decode,
all `n` for encode. -/
def readCount (i : Instr) (s : State) : Nat :=
  match i.op with
  | .dec => 2 * (s.srcLen / 2)
  | .enc => s.srcLen

/-- The code of the lower-case letter of a hex code (44_dispatcher_commands.md R210). -/
def lowerCode (u : Nat) : Nat := if 0x41 ≤ u ∧ u ≤ 0x46 then u + 0x20 else u

/-- Every host-visible register but `STATUS`, and the host's own side, are unchanged (10_state.md R27). -/
abbrev RegsKept (s t : State) : Prop :=
  t.params = s.params ∧ t.cmd = s.cmd ∧ t.srcBase = s.srcBase ∧ t.srcLen = s.srcLen ∧
    t.dstBase = s.dstBase ∧ t.dstCap = s.dstCap ∧ t.queue = s.queue ∧ t.rdData = s.rdData

/-- The byte is no command, or a command whose views keep R58 and R59. -/
def startOk (b : Byte) (s : State) : Bool :=
  match decode b with
  | .command i => (viewRefusal s.params (sampleJob i s)).isNone
  | .illegal _ => true

/-- The host's next act keeps its duties (20_memory.md R50, R58, R59; 70_reset_and_hazards.md R256, R257).
DESIGN CHOICE: an access outside the bytes of R50 breaks them (log entry 21), and a `CMD` write wider than a
byte carries its low eight bits (log entry 14). -/
def hostDutiful (s : State) : Bool :=
  match s.queue with
  | .call b :: _ => s.isBusy || startOk b s
  | .wr .cmd v :: _ => s.isBusy || startOk (BitVec.ofNat 8 v) s
  | .store a _ :: _ => decide (a < 2 ^ s.params.addrBits) && !storeForbidden s a
  | .load a :: _ => decide (a < 2 ^ s.params.addrBits) && !loadForbidden s a
  | .wr .status _ :: _ => true
  | .wr .srcBase _ :: _ => true
  | .wr .srcLen _ :: _ => true
  | .wr .dstBase _ :: _ => true
  | .wr .dstCap _ :: _ => true
  | .rd _ :: _ => true
  | .idle :: _ => true
  | .wait :: _ => true
  | .reset :: _ => true
  | [] => true

/-- A safe step: the machine goes on. -/
def StepSafe (s : State) : Prop := ∃ t, step s = .next t

/-- Where a running command stands agrees with its operands: `IN_OFF` and `OUT_OFF` count the blocks that
are done (10_state.md R30), and the blocks and units left are those of the whole command
(44_dispatcher_commands.md R194, R196, R202, R203). -/
def phaseOk (t : Tier) (j : Job) (inOff outOff : Nat) : Prop :=
  match j.phase with
  | .check => inOff = 0 ∧ outOff = 0
  | .work b p u =>
    capacityShort j.instr.op j.len j.cap = false ∧
      b ≤ fullBlocks j.instr.op t j.len ∧
      p + u = tailUnits j.instr.op t j.len ∧
      (0 < b → p = 0) ∧
      match j.instr.op with
      | .dec =>
        inOff = (fullBlocks .dec t j.len - b) * blockChars t ∧
          outOff = (fullBlocks .dec t j.len - b) * blockBytes t
      | .enc =>
        inOff = (fullBlocks .enc t j.len - b) * blockBytes t ∧
          outOff = (fullBlocks .enc t j.len - b) * blockChars t

/-- What holds of the running command: it runs on the values the operand registers still have (R27), on
views that keep R58 and R59, and stands where its operands say. -/
def jobOk (s : State) : Prop :=
  match s.status with
  | .busy j =>
    j.src = s.srcBase ∧ j.len = s.srcLen ∧ j.dst = s.dstBase ∧ j.cap = s.dstCap ∧
      viewRefusal s.params j = none ∧ phaseOk s.params.tier j s.inOff s.outOff
  | .idle => True
  | .ok => True
  | .errCapacity => True
  | .errInvalidChar => True
  | .errIllegalCmd => True

/-- The invariant: memory is in its canonical form inside the `2^ADDR_BITS` bytes (R50), the operand
registers have their widths (R20), and the running command is as `jobOk` says. -/
structure Inv (s : State) : Prop where
  memWf : s.mem.wf = true
  memInside : ∀ c ∈ s.mem, c.1 < 2 ^ s.params.addrBits
  srcBaseFits : s.srcBase < 2 ^ s.params.addrBits
  srcLenFits : s.srcLen < 2 ^ s.params.lenBits
  dstBaseFits : s.dstBase < 2 ^ s.params.addrBits
  dstCapFits : s.dstCap < 2 ^ s.params.lenBits
  job : jobOk s

end Sys2Proof.Machine
end

