-- ==== Sys2Proof/Certificates/Slice0/Obligations.lean ====
section
/-! DEFINITION. The statements for the provers. Each docstring names the rules of the spec that the
statement formalises. Where a statement speaks of `exec` or `step`, it holds for every choice of `TIER`,
`ADDR_BITS`, `LEN_BITS` and `FAIL_OUTPUT`, since these are fields of the state. -/

open Sys2Proof Sys2Proof.Machine

/-- R83: the six commands: their bytes, the fields `RSV`, `CWSEL`, `OP` of each, their operations and widths;
every bit of the byte is decoded. -/
def Obligations.CommandBytesOfTheTable : Prop :=
  (decode 0x01 = .command .decC1 ∧ commandWord 0x01 = ⟨0, 0, 1⟩ ∧
    Instr.decC1.op = .dec ∧ Instr.decC1.cw.bytes = 1) ∧
  (decode 0x05 = .command .decC2 ∧ commandWord 0x05 = ⟨0, 1, 1⟩ ∧
    Instr.decC2.op = .dec ∧ Instr.decC2.cw.bytes = 2) ∧
  (decode 0x09 = .command .decC4 ∧ commandWord 0x09 = ⟨0, 2, 1⟩ ∧
    Instr.decC4.op = .dec ∧ Instr.decC4.cw.bytes = 4) ∧
  (decode 0x02 = .command .encC1 ∧ commandWord 0x02 = ⟨0, 0, 2⟩ ∧
    Instr.encC1.op = .enc ∧ Instr.encC1.cw.bytes = 1) ∧
  (decode 0x06 = .command .encC2 ∧ commandWord 0x06 = ⟨0, 1, 2⟩ ∧
    Instr.encC2.op = .enc ∧ Instr.encC2.cw.bytes = 2) ∧
  (decode 0x0A = .command .encC4 ∧ commandWord 0x0A = ⟨0, 2, 2⟩ ∧
    Instr.encC4.op = .enc ∧ Instr.encC4.cw.bytes = 4) ∧
  ∀ (c d : Byte) (i : Instr), decode c = .command i → decode d = .command i → c = d

/-- R84: which bytes are commands, and what a write of any other byte does while the unit is not `BUSY`. -/
def Obligations.LegalBytesAndIllegalWrites : Prop :=
  (∀ c : Byte, (∃ i, decode c = .command i) ↔
    c.extractLsb' 4 4 = 0 ∧ (c.extractLsb' 0 2 = 1 ∨ c.extractLsb' 0 2 = 2) ∧ c.extractLsb' 2 2 ≠ 3) ∧
  ((List.range 256).filter fun n => (decodeTableWord 8 n).isNone).length = 250 ∧
  ∀ (c : Byte) (r : Illegal) (s : State), decode c = .illegal r → s.isBusy = false →
    hostTurn (.wr .cmd c.toNat) s = .next { s with cmd := c, status := .errIllegalCmd }

/-- R80 to R84: a command is well formed, decodes to itself, and is what the table's word stands for. -/
def Obligations.DecodeOfEncode : Prop :=
  ∀ i : Instr, i.wf = true ∧ decode (encode i) = .command i ∧ decodeTableWord 8 (encode i).toNat = some i

/-- R105: the two tables are inverse to each other, up to the case of a letter. -/
def Obligations.LookupTablesInverse : Prop :=
  (∀ n : BitVec 4, c2n (n2c n) = n.setWidth 8) ∧
  ∀ i : Byte, c2n i ≠ INVALID →
    n2c ((c2n i).setWidth 4) = if 0x41 ≤ i ∧ i ≤ 0x46 then i + 0x20 else i

/-- R107: the three subtract-if-in-range steps and the union test compute the table on every lane; with the
range test in front they compute `LOOKUP`; validity is reported for the whole block. -/
def Obligations.ParallelLookupComputesTable : Prop :=
  (∀ (v : VecRegs) (k : Nat) (h : k < v.x.length),
    (c2n v.x[k] ≠ INVALID → laneAt (classify v).x k = c2n v.x[k]) ∧
    ((laneAt (classify v).m0 k = 0xFF ∨ laneAt (classify v).m1 k = 0xFF ∨ laneAt (classify v).m2 k = 0xFF) ↔
      c2n v.x[k] ≠ INVALID)) ∧
  (∀ v : VecRegs, covered (classify v) = true ↔ ∀ x ∈ v.x, c2n x ≠ INVALID) ∧
  ∀ (t : Tier) (cw : CharWidth) (rd : Nat → Nat) (i0 : Nat) (v : VecRegs), (∀ k, rd k < 256 ^ cw.bytes) →
    ((vdecRegs t cw rd i0 v).2 = true ↔ ∀ k < blockChars t, lookup cw (rd (i0 + k)) ≠ INVALID) ∧
    ((vdecRegs t cw rd i0 v).2 = true →
      ∀ k < blockChars t, laneAt (vdecRegs t cw rd i0 v).1.x k = lookup cw (rd (i0 + k)))

/-- R108: on lanes that hold nibbles, the compare-and-add computes `N2C` on every lane, at every width. -/
def Obligations.ParallelNibbleToCharacter : Prop :=
  (∀ (t : Tier) (cw : CharWidth) (v : VecRegs) (f : Nat → BitVec 4),
    v.z = bank t cw (fun k => (f k).setWidth 32) →
    ∀ k < blockChars t, bankAt t cw (toAscii t cw (overNine t cw v)).z k = (n2c (f k)).setWidth 32) ∧
  ∀ n : BitVec 4, n2c n = if n ≤ 9 then n.setWidth 8 + 0x30 else n.setWidth 8 + 0x57

/-- R154: the decode block step as one function of the block's code units. It raises InvalidCharacterError,
and writes nothing, when one of them is invalid, and else stores the packed bytes and nothing else. On a valid
block `SDEC` writes the same; on an invalid one it writes the pairs before the first bad one. -/
def Obligations.DecodeBlockAsOneFunction : Prop :=
  ∀ (j : Job) (i0 o0 : Nat) (s : State), j.instr.op = .dec →
    let v : Nat → Byte := fun k => lookup j.instr.cw (srcRead j s.mem (i0 + k))
    let bytes : List Nat :=
      (List.range (blockBytes s.params.tier)).map fun i => ((v (2 * i) <<< 4) ||| v (2 * i + 1)).toNat
    ((∃ k < blockChars s.params.tier, v k = INVALID) →
      ∃ r, vdecBlock j i0 o0 s = .stop (raiseInvalidChar j { s with vec := r })) ∧
    ((∀ k < blockChars s.params.tier, v k ≠ INVALID) →
      ∃ r, vdecBlock j i0 o0 s = .go { s with vec := r, mem := dstWriteAll j s.mem o0 bytes }) ∧
    (j.viewsDisjoint = true → i0 + blockChars s.params.tier ≤ j.len →
      o0 + blockBytes s.params.tier ≤ j.cap →
      ((∀ k < blockChars s.params.tier, v k ≠ INVALID) →
        sdec j i0 (blockChars s.params.tier) o0 (blockBytes s.params.tier) s =
          .go { s with mem := dstWriteAll j s.mem o0 bytes }) ∧
      ∀ e < blockChars s.params.tier, v e = INVALID → (∀ k < e, v k ≠ INVALID) →
        sdec j i0 (blockChars s.params.tier) o0 (blockBytes s.params.tier) s =
          .stop (raiseInvalidChar j { s with mem := dstWriteAll j s.mem o0 (bytes.take (e / 2)) }))

/-- R178: the encode block step writes, for byte `i` of the block, the character of its high nibble at
element `2i` and of its low nibble at `2i + 1`, and nothing else; it is what `SENC` writes. -/
def Obligations.EncodeBlockWritesWhatSencWrites : Prop :=
  ∀ (j : Job) (i0 o0 : Nat) (s : State), j.viewsDisjoint = true →
    i0 + blockBytes s.params.tier ≤ j.len → o0 + blockChars s.params.tier ≤ j.cap →
    ∃ v m, vencBlock j i0 o0 s = .go { s with vec := v, mem := m } ∧
      senc j i0 (blockBytes s.params.tier) o0 (blockChars s.params.tier) s = .go { s with mem := m } ∧
      m = dstWriteAll j s.mem o0 ((List.range (blockChars s.params.tier)).map fun k =>
        let b : Byte := BitVec.ofNat 8 (srcRead j s.mem (i0 + k / 2))
        if k % 2 = 0 then (n2c (b.extractLsb' 4 4)).toNat else (n2c (b.extractLsb' 0 4)).toNat)

/-- R200 (c), for `DEC.C1`, `DEC.C2`, `DEC.C4` and every tier: a string of hex digits that passes the
capacity check is decoded; the command completes with `OK`, byte `p` is that of pair `p`, no other byte of
caller memory and no host-visible register but `STATUS` changes. -/
def Obligations.DecodeOfValidTextCompletes : Prop :=
  ∀ (i : Instr) (s : State), i = .decC1 ∨ i = .decC2 ∨ i = .decC4 → Ready i s →
    s.srcLen ≤ s.dstCap * 2 → AllValid i s →
    ∃ t, exec i s = .next t ∧ t.status = .ok ∧
      (∀ p < s.srcLen / 2, dstElem i s t.mem p = pairByte i s p) ∧
      SameOutside s.dstBase (s.dstBase + s.srcLen / 2) s.mem t.mem ∧ RegsKept s t

/-- R204, for `ENC.C1`, `ENC.C2`, `ENC.C4` and every tier: the command completes; with too small a capacity
it ends `ERR_CAPACITY` and memory is unchanged; else it ends `OK`, the characters of byte `p` stand at
elements `2p` and `2p + 1`, zero-extended, and no other byte of caller memory changes. -/
def Obligations.EncodeCompletes : Prop :=
  ∀ (i : Instr) (s : State), i = .encC1 ∨ i = .encC2 ∨ i = .encC4 → Ready i s →
    ∃ t, exec i s = .next t ∧ RegsKept s t ∧
      (s.dstCap < 2 * s.srcLen → t.status = .errCapacity ∧ t.mem = s.mem) ∧
      (2 * s.srcLen ≤ s.dstCap → t.status = .ok ∧
        (∀ p < s.srcLen,
          dstElem i s t.mem (2 * p) = (n2c ((BitVec.ofNat 8 (srcElem i s p)).extractLsb' 4 4)).toNat ∧
          dstElem i s t.mem (2 * p + 1) = (n2c ((BitVec.ofNat 8 (srcElem i s p)).extractLsb' 0 4)).toNat) ∧
        SameOutside s.dstBase (s.dstBase + 2 * s.srcLen * i.cw.bytes) s.mem t.mem)

/-- R222: CapacityError of the six commands; the source is not examined and memory is left alone. -/
def Obligations.CapacityErrorTouchesNoMemory : Prop :=
  ∀ (i : Instr) (s : State), Ready i s →
    (i.op = .dec → s.dstCap * 2 < s.srcLen →
      ∃ t, exec i s = .next t ∧ t.status = .errCapacity ∧ t.mem = s.mem ∧ RegsKept s t) ∧
    (i.op = .enc → s.dstCap < s.srcLen * 2 →
      ∃ t, exec i s = .next t ∧ t.status = .errCapacity ∧ t.mem = s.mem ∧ RegsKept s t) ∧
    ∀ t, exec i s = .next t → t.status = .errCapacity →
      (i.op = .dec ∧ s.dstCap * 2 < s.srcLen) ∨ (i.op = .enc ∧ s.dstCap < s.srcLen * 2)

/-- R223: InvalidCharacterError arises in a decode command exactly when the capacity check has passed and a
validated character is invalid; in an encode command never; the source view is unchanged. -/
def Obligations.InvalidCharacterErrorExactly : Prop :=
  ∀ (i : Instr) (s : State), Ready i s →
    ∃ t, exec i s = .next t ∧
      (t.status = .errInvalidChar ↔
        i.op = .dec ∧ s.srcLen ≤ s.dstCap * 2 ∧ ∃ k < 2 * (s.srcLen / 2), nibbleOf i s k = INVALID) ∧
      ∀ a, (sampleJob i s).inSrc a = true → t.mem.read a = s.mem.read a

/-- R227, under `FAIL_OUTPUT = reference`: the destination after InvalidCharacterError, for every tier. -/
def Obligations.ReferenceOutputAfterInvalidCharacter : Prop :=
  ∀ (i : Instr) (s : State) (e : Nat), i.op = .dec → Ready i s → s.srcLen ≤ s.dstCap * 2 →
    s.params.failOutput = .reference → FirstInvalid i s e →
    ∃ t, exec i s = .next t ∧ t.status = .errInvalidChar ∧
      (∀ p < wRef s.params.tier s.srcLen e, dstElem i s t.mem p = pairByte i s p) ∧
      SameOutside s.dstBase (s.dstBase + wRef s.params.tier s.srcLen e) s.mem t.mem ∧ RegsKept s t

/-- R228, under `FAIL_OUTPUT = contract`, the default: what a host may rely on after InvalidCharacterError,
for every tier: the first `W_guar` bytes, and every byte outside the destination view. The others are freely
drawn: the `d`-th is the free value `Config.freeByte (draws + d)`, of which nothing is known. `W_guar ≤ W_ref`. -/
def Obligations.ContractOutputAfterInvalidCharacter : Prop :=
  (∀ (i : Instr) (s : State) (e : Nat), i.op = .dec → Ready i s → s.srcLen ≤ s.dstCap * 2 →
    s.params.failOutput = .contract → FirstInvalid i s e →
    ∃ t, exec i s = .next t ∧ t.status = .errInvalidChar ∧
      (∀ p < wGuar s.params.tier e, dstElem i s t.mem p = pairByte i s p) ∧
      (∀ d < s.dstCap - wGuar s.params.tier e,
        t.mem.read (s.dstBase + wGuar s.params.tier e + d) = Config.freeByte (s.draws + d)) ∧
      SameOutside s.dstBase (s.dstBase + s.dstCap) s.mem t.mem ∧ RegsKept s t) ∧
  State.reset.params.failOutput = .contract ∧
  ∀ (t : Tier) (n e : Nat), e < 2 * (n / 2) → wGuar t e ≤ wRef t n e

/-- R200, R204, R3: neither the status nor the output of a successful command depends on the tier. -/
def Obligations.TiersAreInterchangeable : Prop :=
  ∀ (i : Instr) (s : State) (tier : Tier) (t u : State), s.isBusy = false →
    exec i s = .next t → exec i { s with params := { s.params with tier := tier } } = .next u →
    t.status = u.status ∧ (t.status = .ok → ∀ a, t.mem.read a = u.mem.read a)

/-- R209: `ENC.Cw` of `n` bytes into `2n` code units and `DEC.Cw` of those into `n` bytes both end `OK` and
give the first bytes back, for every width, tier and `n`. -/
def Obligations.EncodeThenDecodeGivesBytesBack : Prop :=
  ∀ (cw : CharWidth) (s t : State) (dst : Nat), Ready (instrOf .enc cw) s → s.dstCap = 2 * s.srcLen →
    exec (instrOf .enc cw) s = .next t →
    Ready (instrOf .dec cw)
      { t with srcBase := s.dstBase, srcLen := 2 * s.srcLen, dstBase := dst, dstCap := s.srcLen } →
    t.status = .ok ∧
    ∃ u, exec (instrOf .dec cw)
        { t with srcBase := s.dstBase, srcLen := 2 * s.srcLen, dstBase := dst, dstCap := s.srcLen } = .next u ∧
      u.status = .ok ∧ ∀ p < s.srcLen, u.mem.read (dst + p) = s.mem.read (s.srcBase + p)

/-- R210: a valid string and its lower-case form decode to the same bytes; and what is encoded from the bytes
that a valid string decodes to is the string's lower-case form, for every width and tier. -/
def Obligations.CaseNormalisation : Prop :=
  (∀ (i : Instr) (s : State) (m : Memory), i.op = .dec → Ready i s → s.srcLen ≤ s.dstCap * 2 → AllValid i s →
    (∀ k < s.srcLen, srcElem i { s with mem := m } k = lowerCode (srcElem i s k)) →
    ∃ t u, exec i s = .next t ∧ exec i { s with mem := m } = .next u ∧ t.status = .ok ∧ u.status = .ok ∧
      ∀ p < s.srcLen / 2, dstElem i s t.mem p = dstElem i s u.mem p) ∧
  ∀ (cw : CharWidth) (s t : State) (dst cap : Nat), Ready (instrOf .dec cw) s → s.srcLen ≤ s.dstCap * 2 →
    AllValid (instrOf .dec cw) s → exec (instrOf .dec cw) s = .next t →
    Ready (instrOf .enc cw)
      { t with srcBase := s.dstBase, srcLen := s.srcLen / 2, dstBase := dst, dstCap := cap } →
    2 * (s.srcLen / 2) ≤ cap →
    ∃ u, exec (instrOf .enc cw)
        { t with srcBase := s.dstBase, srcLen := s.srcLen / 2, dstBase := dst, dstCap := cap } = .next u ∧
      u.status = .ok ∧
      ∀ k < 2 * (s.srcLen / 2),
        dstElem (instrOf .enc cw)
          { t with srcBase := s.dstBase, srcLen := s.srcLen / 2, dstBase := dst, dstCap := cap } u.mem k =
        lowerCode (srcElem (instrOf .dec cw) s k)

/-- R88: an encode command writes only `0` to `9` and `a` to `f`, never `A` to `F`; the upper bytes of a
wide code unit are 0x00. -/
def Obligations.EncodeWritesLowerCaseOnly : Prop :=
  ∀ (i : Instr) (s t : State) (k : Nat), i.op = .enc → s.isBusy = false → exec i s = .next t → t.status = .ok →
    k < 2 * s.srcLen →
    ((0x30 ≤ dstElem i s t.mem k ∧ dstElem i s t.mem k ≤ 0x39) ∨
      (0x61 ≤ dstElem i s t.mem k ∧ dstElem i s t.mem k ≤ 0x66)) ∧
    ∀ d, 0 < d → d < i.cw.bytes → t.mem.read ((sampleJob i s).dstAddr k + d) = 0

/-- R214: a code unit above 0xFF in a validated position gives InvalidCharacterError, in every tier. -/
def Obligations.WideCodeUnitsAreRejected : Prop :=
  ∀ (i : Instr) (s : State) (k : Nat), i = .decC2 ∨ i = .decC4 → Ready i s → s.srcLen ≤ s.dstCap * 2 →
    k < 2 * (s.srcLen / 2) → 0xFF < srcElem i s k →
    ∃ t, exec i s = .next t ∧ t.status = .errInvalidChar

/-- R215: a string of odd length decodes as if truncated by its last character, whatever that is; only the
capacity check counts the full length. -/
def Obligations.OddLengthDecodesAsTruncated : Prop :=
  ∀ (i : Instr) (s : State), i.op = .dec → Ready i s → s.srcLen % 2 = 1 →
    (s.dstCap * 2 < s.srcLen → ∃ t, exec i s = .next t ∧ t.status = .errCapacity) ∧
    (s.srcLen ≤ s.dstCap * 2 → ∃ t u, exec i s = .next t ∧
      exec i { s with srcLen := s.srcLen - 1 } = .next u ∧ t.status = u.status ∧
      ∀ a, t.mem.read a = u.mem.read a)

/-- R60, reads: two memories that hold the same source elements at the positions R60 lets a command read
give the same status, and every byte of caller memory is either as the command found it in both or the same
in both. -/
def Obligations.CommandReadsNoMoreThanItsFootprint : Prop :=
  ∀ (i : Instr) (s t u : State) (m : Memory), s.isBusy = false →
    (∀ k < readCount i s, srcElem i { s with mem := m } k = srcElem i s k) →
    exec i s = .next t → exec i { s with mem := m } = .next u →
    t.status = u.status ∧
      ∀ a, t.mem.read a = u.mem.read a ∨ (t.mem.read a = s.mem.read a ∧ u.mem.read a = m.read a)

/-- R60, writes, for all six commands: outside the destination view nothing changes; after `OK` nothing
beyond the elements that the command's length gives; after `ERR_CAPACITY` nothing at all. The elements stored
to are those at `Job.dstAddr`, the address the meanings store to. -/
def Obligations.MemoryFrameOfCommands : Prop :=
  ∀ (i : Instr) (s t : State), s.isBusy = false → exec i s = .next t →
    SameOutside s.dstBase ((sampleJob i s).dstAddr s.dstCap) s.mem t.mem ∧
    (t.status = .ok → SameOutside s.dstBase ((sampleJob i s).dstAddr (outCount i s)) s.mem t.mem ∧
      outCount i s ≤ s.dstCap) ∧
    (t.status = .errCapacity → t.mem = s.mem) ∧
    ∀ a, (sampleJob i s).inSrc a = true → t.mem.read a = s.mem.read a

/-- R27, R190, for all six commands: a command writes no host-visible register but `STATUS`; the parameters
and the host's own side are unchanged too. The hidden registers `IN_OFF`, `OUT_OFF` and the vector registers
may change. -/
def Obligations.RegisterFrameOfCommands : Prop :=
  ∀ (i : Instr) (s t : State), exec i s = .next t → RegsKept s t

/-- R208: an issued command ends, in exactly one of `OK`, `ERR_CAPACITY`, `ERR_INVALID_CHAR`; only a decode
command ends in the last. -/
def Obligations.CommandsEndInOneOfThreeCodes : Prop :=
  ∀ (i : Instr) (s : State), Ready i s →
    ∃ t, exec i s = .next t ∧
      (t.status = .ok ∨ t.status = .errCapacity ∨ (t.status = .errInvalidChar ∧ i.op = .dec))

/-- R58, R59: a command whose views pass the top of caller memory, or share a byte, is refused; any other
command issued while the unit is not `BUSY` is not, whatever the alignment of its views. -/
def Obligations.ViewsOutsideTheSpecAreRefused : Prop :=
  ∀ (i : Instr) (s : State), s.isBusy = false →
    (exec i s = .refused .viewWraps ↔
      2 ^ s.params.addrBits < s.srcBase + s.srcLen * esSrc i ∨
        2 ^ s.params.addrBits < s.dstBase + s.dstCap * esDst i) ∧
    (exec i s = .refused .viewsOverlap ↔
      s.srcBase + s.srcLen * esSrc i ≤ 2 ^ s.params.addrBits ∧
        s.dstBase + s.dstCap * esDst i ≤ 2 ^ s.params.addrBits ∧
        ∃ a, (s.srcBase ≤ a ∧ a < s.srcBase + s.srcLen * esSrc i) ∧
          s.dstBase ≤ a ∧ a < s.dstBase + s.dstCap * esDst i) ∧
    ((∃ t, exec i s = .next t) ↔ Ready i s)

/-- R255: while `BUSY` a host write of any register is ignored, and a command written then is lost without
any error code; what remains of the command form is the wait. -/
def Obligations.WritesWhileBusyAreIgnored : Prop :=
  ∀ s : State, s.isBusy = true →
    (∀ (r : Reg) (v : Nat), hostTurn (.wr r v) s = .next s) ∧
    (∀ b : Byte, hostTurn (.call b) s = .next { s with queue := .wait :: s.queue }) ∧
    ∀ i : Instr, exec i s = .next s

/-- R22: the codes of `STATUS`, what it reads as, and that codes 6 and 7 are never produced; a write of it is
ignored; a read of a register, `BUSY` or not, changes no register. -/
def Obligations.StatusRegister : Prop :=
  (Status.idle.code = 0 ∧ (∀ j, (Status.busy j).code = 1) ∧ Status.ok.code = 2 ∧ Status.errCapacity.code = 3 ∧
    Status.errInvalidChar.code = 4 ∧ Status.errIllegalCmd.code = 5) ∧
  (∀ s : State, s.status.toByte.extractLsb' 0 3 = s.status.code ∧ s.status.toByte.extractLsb' 3 5 = 0 ∧
    s.status.code.toNat < 6) ∧
  (∀ (s : State) (v : Nat), hostTurn (.wr .status v) s = .next s) ∧
  ∀ (s : State) (r : Reg), hostTurn (.rd r) s = .next { s with rdData := some (readReg r s) }

/-- R27, R92: when the host's next act is the command form of a byte that decodes to `i` and the unit is not
`BUSY`, the step is `exec i` at the state in which the byte is stored in `CMD` and the act is done. -/
def Obligations.StepRunsTheDecodedCommand : Prop :=
  ∀ (s : State) (b : Byte) (rest : List HostAct) (i : Instr), s.queue = .call b :: rest → s.isBusy = false →
    decode b = .command i → i.wf = true ∧ step s = exec i { s with cmd := b, queue := rest }

/-- R27, R30: a bare write of `CMD` while the unit is not `BUSY`, of a byte that decodes to `i`: the byte is
stored, the operands are sampled, `STATUS.CODE` becomes `BUSY` and both offsets 0; no other register and no
byte of memory changes. For a value below 256 that is what the rules say. The statement covers
wider values too, whose low eight bits are the byte: that is the model's choice (log entry 14). -/
def Obligations.CmdWriteStartsCommand : Prop :=
  ∀ (i : Instr) (s : State) (v : Nat), decode (BitVec.ofNat 8 v) = .command i → Ready i s →
    hostTurn (.wr .cmd v) s = .next
      { s with
        cmd := BitVec.ofNat 8 v
        status := .busy { instr := i, src := s.srcBase, len := s.srcLen, dst := s.dstBase, cap := s.dstCap,
                          phase := .check }
        inOff := 0
        outOff := 0 }

/-- R20, R23 to R26: while the unit is not `BUSY`, each operand register holds what was last written to it, a
read returns it, and the write changes no other register and no byte of memory. -/
def Obligations.OperandRegisterWriteThenRead : Prop :=
  ∀ (r : Reg) (s : State) (v : Nat), r = .srcBase ∨ r = .srcLen ∨ r = .dstBase ∨ r = .dstCap →
    s.isBusy = false → v < 2 ^ r.width s.params →
    ∃ t, hostTurn (.wr r v) s = .next t ∧ readReg r t = v ∧ (∀ r', r' ≠ r → readReg r' t = readReg r' s) ∧
      t.mem = s.mem ∧ t.status = s.status ∧ t.params = s.params

/-- R131: the scalar engine's own capacity check cannot fail on the tail, once the command's has passed. -/
def Obligations.TailCapacityCheckCannotFail : Prop :=
  ∀ (t : Tier) (n cap k : Nat),
    (capacityShort .dec n cap = false → k * blockChars t ≤ n →
      capacityShort .dec (n - k * blockChars t) (cap - k * blockBytes t) = false) ∧
    (capacityShort .enc n cap = false → k * blockBytes t ≤ n →
      capacityShort .enc (n - k * blockBytes t) (cap - k * blockChars t) = false)

/-- R225: an illegal byte, written in either form while the unit is not `BUSY`: it stays in `CMD`,
`STATUS.CODE` becomes `ERR_ILLEGAL_CMD`, nothing else changes, and the unit is ready again. -/
def Obligations.IllegalByteIsReported : Prop :=
  ∀ (s : State) (b : Byte) (rest : List HostAct), s.isBusy = false → (∀ i, decode b ≠ .command i) →
    s.queue = .call b :: rest ∨ s.queue = .wr .cmd b.toNat :: rest →
    step s = .next { s with cmd := b, status := .errIllegalCmd, queue := rest } ∧
      ({ s with cmd := b, status := .errIllegalCmd, queue := rest } : State).isBusy = false

/-- R37: the state after reset, and that every command issued straight after it completes with `OK`, reading
and writing nothing. The values of `IN_OFF`, `OUT_OFF`, the vector registers and the parameters are the
model's (log entries 1 and 3) and no part of this. -/
def Obligations.ResetState : Prop :=
  (∃ p : Params, State.reset = State.resetOf p) ∧
  ∀ p : Params,
    (State.resetOf p).cmd = 0 ∧ (State.resetOf p).status = .idle ∧ (State.resetOf p).srcBase = 0 ∧
    (State.resetOf p).srcLen = 0 ∧ (State.resetOf p).dstBase = 0 ∧ (State.resetOf p).dstCap = 0 ∧
    ∀ (i : Instr) (m : Memory),
      ∃ t, exec i { State.resetOf p with mem := m } = .next t ∧ t.status = .ok ∧ t.mem = m

/-- R250, R251: reset at any time gives the register values of R37; caller memory is unchanged when no
command runs; a running command is abandoned, no byte outside its destination view changes, and under
`FAIL_OUTPUT = reference` no byte at all. -/
def Obligations.ResetAtAnyTime : Prop :=
  ∀ s : State, ∃ t, hostTurn .reset s = .next t ∧
    t.cmd = 0 ∧ t.status = .idle ∧ t.srcBase = 0 ∧ t.srcLen = 0 ∧ t.dstBase = 0 ∧ t.dstCap = 0 ∧
    t.params = s.params ∧
    (s.isBusy = false → t.mem = s.mem) ∧
    (s.params.failOutput = .reference → t.mem = s.mem) ∧
    ∀ j, s.status = .busy j → ∀ a, j.inDst a = false → t.mem.read a = s.mem.read a

/-- R263: the command as one step and the command taken step by step from its start give the same state;
a successful command takes `1 + full + tail_units + 1` steps, no command takes more, and it is `BUSY` until
its last one. -/
def Obligations.StepByStepEqualsWholeCommand : Prop :=
  ∀ (i : Instr) (s t : State), Ready i s → exec i s = .next t →
    ∃ k, k ≤ commandSteps i s.params.tier s.srcLen ∧
      unitTurns k (startCommand (sampleJob i s) s) = t ∧
      (∀ m < k, (unitTurns m (startCommand (sampleJob i s) s)).isBusy = true) ∧
      (t.status = .ok → k = commandSteps i s.params.tier s.srcLen)

/-- R208: a running command always ends, from every state, within the steps it has left, in one of the three
codes. -/
def Obligations.RunningCommandEnds : Prop :=
  ∀ (s : State) (j : Job), s.status = .busy j →
    ∃ k, k ≤ (match j.phase with
        | .check => commandSteps j.instr s.params.tier j.len
        | .work b _ u => b + u + 1) ∧
      ((unitTurns k s).status = .ok ∨ (unitTurns k s).status = .errCapacity ∨
        (unitTurns k s).status = .errInvalidChar)

/-- R190, R60, at the grain of R263: a step of the unit changes no register but `STATUS` and the hidden
ones, no byte outside the running command's destination view, and nothing of the source view. -/
def Obligations.UnitStepFrame : Prop :=
  ∀ (s : State) (j : Job), Inv s → s.status = .busy j →
    RegsKept s (unitTurn s) ∧
    (∀ a, j.inDst a = false → (unitTurn s).mem.read a = s.mem.read a) ∧
    ∀ a, j.inSrc a = true → (unitTurn s).mem.read a = s.mem.read a

/-- R30: while a command runs, `IN_OFF` never exceeds `SRC_LEN` and `OUT_OFF` never exceeds `DST_CAP`; both
are 0 when it starts. -/
def Obligations.OffsetsStayInTheViews : Prop :=
  (∀ s : State, Inv s → s.isBusy = true → s.inOff ≤ s.srcLen ∧ s.outOff ≤ s.dstCap) ∧
  ∀ (j : Job) (s : State), (startCommand j s).inOff = 0 ∧ (startCommand j s).outOff = 0

/-- The invariant is kept by every step: R50 (memory in its canonical form and inside `2^ADDR_BITS` bytes),
R20 (register widths), R27 (a running command runs on its sampled operands), R30 (its offsets). -/
def Obligations.StepKeepsInvariant : Prop :=
  ∀ s t : State, Inv s → step s = .next t → Inv t

/-- The state after reset meets the invariant, for every choice of the parameters. -/
def Obligations.ResetMeetsInvariant : Prop :=
  (∀ p : Params, Inv (State.resetOf p)) ∧ Inv State.reset

/-- The machine goes on exactly when the host keeps its duties in its next act: the views of a command keep
R58 and R59 (R257), and no access to caller memory breaks R256. Two clauses are the model's choice and no
rule's: an access to an address outside the bytes of R50 stops (log entry 21), and the command byte of a `CMD`
write wider than eight bits is its low eight bits (log entry 14). -/
def Obligations.DutifulHostIsNeverStopped : Prop :=
  ∀ s : State, StepSafe s ↔ hostDutiful s = true

/-- R10: no step changes `TIER` or another parameter of the unit. -/
def Obligations.ParametersNeverChange : Prop :=
  ∀ s t : State, step s = .next t → t.params = s.params

/-- R256: while a command is `BUSY` a host write to either view, and a host read of the destination view, is
refused; other accesses to caller memory are made. -/
def Obligations.BuffersBelongToTheUnitWhileBusy : Prop :=
  ∀ (s : State) (j : Job) (a : Nat) (b : Byte), s.status = .busy j → a < 2 ^ s.params.addrBits →
    (hostTurn (.store a b) s = .refused .bufferInUse ↔ j.inSrc a = true ∨ j.inDst a = true) ∧
    (hostTurn (.load a) s = .refused .bufferInUse ↔ j.inDst a = true) ∧
    (j.inSrc a = false → j.inDst a = false →
      hostTurn (.store a b) s = .next { s with mem := s.mem.write a b }) ∧
    (j.inDst a = false → hostTurn (.load a) s = .next { s with rdData := some (s.mem.read a).toNat })

/-- R4: what a command does depends on its operands, on memory and on the parameters only, not on what an
earlier command left. (The two states draw the same free values.) -/
def Obligations.NothingIsCarriedOver : Prop :=
  ∀ (i : Instr) (s s' t t' : State), s.isBusy = false → s'.isBusy = false → s.params = s'.params →
    s.srcBase = s'.srcBase → s.srcLen = s'.srcLen → s.dstBase = s'.dstBase → s.dstCap = s'.dstCap →
    s.mem = s'.mem → s.draws = s'.draws → exec i s = .next t → exec i s' = .next t' →
    t.status = t'.status ∧ ∀ a, t.mem.read a = t'.mem.read a

/-- R92: a command line writes the four operand registers, then `CMD`; its last step is `exec` of the command
at the state with those operands. -/
def Obligations.CommandLineSetsOperandsThenRuns : Prop :=
  ∀ (s : State) (c : CommandLine) (rest : List HostAct), s.isBusy = false → c.wf s.params = true →
    s.queue = commandLineActs c ++ rest →
    Host.Core.run core 4 s = .next
      { s with
        srcBase := c.src, srcLen := c.n, dstBase := c.dst, dstCap := c.cap
        queue := .call (encode c.instr) :: rest } ∧
    step { s with
        srcBase := c.src, srcLen := c.n, dstBase := c.dst, dstCap := c.cap
        queue := .call (encode c.instr) :: rest } =
      exec c.instr
        { s with
          srcBase := c.src, srcLen := c.n, dstBase := c.dst, dstCap := c.cap
          cmd := encode c.instr, queue := rest }

/-- R93: the pseudo-command `ENCA.Cw` cannot end with `ERR_CAPACITY`, nor with any other error. -/
def Obligations.EncaCannotFail : Prop :=
  ∀ (s : State) (c : EncaLine), s.isBusy = false → c.wf s.params = true →
    Ready (encaCommandLine c).instr
      { s with srcBase := c.src, srcLen := c.n, dstBase := c.dst, dstCap := 2 * c.n } →
    s.queue = commandLineActs (encaCommandLine c) →
    ∃ t, Host.Core.run core 5 s = .next t ∧ t.status = .ok
end

