-- ==== Sys2Proof/Laws/Memory.lean ====
section
/-! SUPPORT. Laws of caller memory: a read after a write, the canonical form, and the little-endian
accesses. -/

namespace Sys2Proof.Machine

theorem Memory.read_erase (m : Memory) (a c : Nat) :
    (m.erase a).read c = if c = a then unlistedByte else m.read c := by
  induction m with
  | nil => simp [Memory.erase, Memory.read]
  | cons e rest ih =>
    simp only [Memory.erase, Memory.read]
    split <;> rename_i h1
    · rw [ih]
      by_cases h : c = a
      · simp [h]
      · have : ¬ e.1 = c := by omega
        simp [h, this]
    · simp only [Memory.read]
      by_cases h : e.1 = c
      · have : ¬ c = a := by omega
        simp [h, this]
      · simp [h, ih]

theorem Memory.read_insert (m : Memory) (a c : Nat) (b : Byte) (h : m.read a = unlistedByte ∨ c ≠ a)
    (hm : ∀ e ∈ m, e.1 ≠ a) : (m.insert a b).read c = if c = a then b else m.read c := by
  induction m with
  | nil => simp [Memory.insert, Memory.read, eq_comm]
  | cons e rest ih =>
    have hne : e.1 ≠ a := hm e (by simp)
    have hr : Memory.read rest a = unlistedByte ∨ c ≠ a := by
      rcases h with h | h
      · left; simpa [Memory.read, hne] using h
      · right; exact h
    have ih := ih hr (fun x hx => hm x (by simp [hx]))
    simp only [Memory.insert]
    split
    · simp [Memory.read, eq_comm]
    · simp only [Memory.read, ih]
      by_cases h2 : e.1 = c
      · have : ¬ c = a := by omega
        simp [h2, this]
      · simp [h2]

theorem Memory.ne_of_mem_erase (m : Memory) (a : Nat) : ∀ e ∈ m.erase a, e.1 ≠ a := by
  induction m with
  | nil => simp [Memory.erase]
  | cons c rest ih =>
    simp only [Memory.erase]
    split
    · exact ih
    · rename_i h
      simpa using ⟨h, fun x y hx => ih (x, y) hx⟩

/-- A read after a write: the byte written at its address, every other byte as before. -/
@[simp] theorem Memory.read_write (m : Memory) (a c : Nat) (b : Byte) :
    (m.write a b).read c = if c = a then b else m.read c := by
  unfold Memory.write
  split
  · rename_i h; rw [Memory.read_erase, h]
  · rw [Memory.read_insert _ _ _ _ (by left; simp [Memory.read_erase]) (Memory.ne_of_mem_erase m a),
      Memory.read_erase]
    split <;> rfl

theorem Memory.wfFrom_mono {lo hi : Nat} (h : lo ≤ hi) (m : Memory) (hm : Memory.wfFrom hi m = true) :
    Memory.wfFrom lo m = true := by
  cases m with
  | nil => rfl
  | cons c rest => simp [Memory.wfFrom] at hm ⊢; exact ⟨⟨by omega, hm.1.2⟩, hm.2⟩

theorem Memory.wfFrom_erase (m : Memory) (a lo : Nat) (h : Memory.wfFrom lo m = true) :
    Memory.wfFrom lo (m.erase a) = true := by
  induction m generalizing lo with
  | nil => rfl
  | cons c rest ih =>
    simp only [Memory.wfFrom, Bool.and_eq_true, decide_eq_true_eq] at h
    simp only [Memory.erase]
    split
    · exact Memory.wfFrom_mono (by omega) _ (ih _ h.2)
    · simp [Memory.wfFrom, h.1, ih _ h.2]

theorem Memory.wfFrom_insert (m : Memory) (a lo : Nat) (b : Byte) (hb : b ≠ unlistedByte) (hlo : lo ≤ a)
    (h : Memory.wfFrom lo m = true) (hm : ∀ e ∈ m, e.1 ≠ a) :
    Memory.wfFrom lo (m.insert a b) = true := by
  induction m generalizing lo with
  | nil => simp [Memory.insert, Memory.wfFrom, hb, hlo]
  | cons c rest ih =>
    have hc : c.1 ≠ a := hm c (by simp)
    simp only [Memory.wfFrom, Bool.and_eq_true, decide_eq_true_eq] at h
    simp only [Memory.insert]
    split
    · simp only [Memory.wfFrom, Bool.and_eq_true, decide_eq_true_eq]
      exact ⟨⟨hlo, hb⟩, ⟨by omega, h.1.2⟩, h.2⟩
    · simp only [Memory.wfFrom, Bool.and_eq_true, decide_eq_true_eq]
      exact ⟨h.1, ih _ (by omega) h.2 (fun x hx => hm x (by simp [hx]))⟩

/-- A write keeps the canonical form. -/
theorem Memory.wf_write (m : Memory) (a : Nat) (b : Byte) (h : m.wf = true) : (m.write a b).wf = true := by
  unfold Memory.write Memory.wf
  split
  · exact Memory.wfFrom_erase m a 0 h
  · rename_i hb
    exact Memory.wfFrom_insert _ a 0 b hb (by omega) (Memory.wfFrom_erase m a 0 h)
      (Memory.ne_of_mem_erase m a)

theorem Memory.mem_erase (m : Memory) (a : Nat) (e : Host.Cell) (h : e ∈ m.erase a) : e ∈ m := by
  induction m with
  | nil => cases h
  | cons c rest ih =>
    simp only [Memory.erase] at h
    split at h
    · exact List.mem_cons_of_mem _ (ih h)
    · rcases List.mem_cons.mp h with h | h
      · simp [h]
      · exact List.mem_cons_of_mem _ (ih h)

theorem Memory.mem_insert (m : Memory) (a : Nat) (b : Byte) (e : Host.Cell) (h : e ∈ m.insert a b) :
    e = (a, b) ∨ e ∈ m := by
  induction m with
  | nil => simpa [Memory.insert] using h
  | cons c rest ih =>
    simp only [Memory.insert] at h
    split at h
    · exact (List.mem_cons.mp h)
    · rcases List.mem_cons.mp h with h | h
      · simp [h]
      · rcases ih h with h | h <;> simp [h]

/-- A write lists no address but its own and those listed before. -/
theorem Memory.mem_write (m : Memory) (a : Nat) (b : Byte) (e : Host.Cell) (h : e ∈ m.write a b) :
    e.1 = a ∨ e ∈ m := by
  unfold Memory.write at h
  split at h
  · exact .inr (Memory.mem_erase _ _ _ h)
  · rcases Memory.mem_insert _ _ _ _ h with h | h
    · simp [h]
    · exact .inr (Memory.mem_erase _ _ _ h)

theorem Memory.read_of_lt (m : Memory) (lo a : Nat) (h : Memory.wfFrom lo m = true) (ha : a < lo) :
    m.read a = unlistedByte := by
  induction m generalizing lo with
  | nil => rfl
  | cons c rest ih =>
    simp only [Memory.wfFrom, Bool.and_eq_true, decide_eq_true_eq] at h
    have : ¬ c.1 = a := by omega
    simp [Memory.read, this, ih (c.1 + 1) h.2 (by omega)]

theorem Memory.ext_from (lo : Nat) (m m' : Memory) (h : Memory.wfFrom lo m = true)
    (h' : Memory.wfFrom lo m' = true) (hr : ∀ a, m.read a = m'.read a) : m = m' := by
  induction m generalizing lo m' with
  | nil =>
    cases m' with
    | nil => rfl
    | cons c rest =>
      simp only [Memory.wfFrom, Bool.and_eq_true, decide_eq_true_eq] at h'
      have := hr c.1
      simp [Memory.read] at this
      exact absurd this.symm h'.1.2
  | cons c rest ih =>
    cases m' with
    | nil =>
      simp only [Memory.wfFrom, Bool.and_eq_true, decide_eq_true_eq] at h
      have := hr c.1
      simp [Memory.read] at this
      exact absurd this h.1.2
    | cons c' rest' =>
      have h0 := h
      have h0' := h'
      simp only [Memory.wfFrom, Bool.and_eq_true, decide_eq_true_eq] at h h'
      have hlt : c.1 = c'.1 := by
        rcases Nat.lt_trichotomy c.1 c'.1 with hl | hl | hl
        · exfalso
          have e := hr c.1
          rw [Memory.read_of_lt (c' :: rest') c'.1 c.1 (by simp [Memory.wfFrom, h'.1.2, h'.2]) hl] at e
          simp [Memory.read] at e
          exact h.1.2 e
        · exact hl
        · exfalso
          have e := hr c'.1
          rw [Memory.read_of_lt (c :: rest) c.1 c'.1 (by simp [Memory.wfFrom, h.1.2, h.2]) hl] at e
          simp [Memory.read] at e
          exact h'.1.2 e.symm
      have hb : c.2 = c'.2 := by
        have e := hr c.1
        simpa [Memory.read, hlt] using e
      have hc : c = c' := Prod.ext hlt hb
      subst hc
      congr 1
      refine ih (c.1 + 1) rest' h.2 h'.2 fun a => ?_
      by_cases ha : c.1 = a
      · subst ha
        rw [Memory.read_of_lt rest _ _ h.2 (by omega), Memory.read_of_lt rest' _ _ h'.2 (by omega)]
      · have e := hr a
        simpa [Memory.read, ha] using e

/-- Two memories in the canonical form that read the same are the same list. -/
theorem Memory.ext_read {m m' : Memory} (h : m.wf = true) (h' : m'.wf = true)
    (hr : ∀ a, m.read a = m'.read a) : m = m' :=
  Memory.ext_from 0 m m' h h' hr

/-- `MemRead` depends on the bytes it reads only. -/
theorem memRead_congr {m m' : Memory} {a n : Nat} (h : ∀ c, a ≤ c → c < a + n → m.read c = m'.read c) :
    memRead m a n = memRead m' a n := by
  induction n generalizing a with
  | zero => rfl
  | succ n ih =>
    simp only [memRead]
    rw [h a (by omega) (by omega), ih fun c h1 h2 => h c (by omega) (by omega)]

theorem memRead_lt (m : Memory) (a n : Nat) : memRead m a n < 256 ^ n := by
  induction n generalizing a with
  | zero => simp [memRead]
  | succ n ih =>
    have h1 := ih (a + 1)
    have h2 : (m.read a).toNat < 256 := (m.read a).isLt
    simp only [memRead, pow_succ]
    omega

@[simp] theorem memRead_one (m : Memory) (a : Nat) : memRead m a 1 = (m.read a).toNat := by
  simp [memRead]

/-- What every address holds after `MemWrite`. -/
theorem read_memWrite (m : Memory) (a n v c : Nat) :
    (memWrite m a n v).read c =
      if a ≤ c ∧ c < a + n then BitVec.ofNat 8 (v / 256 ^ (c - a)) else m.read c := by
  induction n generalizing m a v with
  | zero =>
    have : ¬ (a ≤ c ∧ c < a + 0) := by omega
    simp only [memWrite, this, if_false]
  | succ n ih =>
    simp only [memWrite, ih, Memory.read_write]
    by_cases h1 : c = a
    · subst h1
      simp
    · by_cases h2 : a + 1 ≤ c ∧ c < a + 1 + n
      · have h3 : a ≤ c ∧ c < a + (n + 1) := by omega
        have h4 : c - a = (c - (a + 1)) + 1 := by omega
        simp only [h2, h3, and_self, if_true]
        rw [h4, pow_succ', Nat.div_div_eq_div_mul]
      · have h3 : ¬ (a ≤ c ∧ c < a + (n + 1)) := by omega
        simp only [h2, h3, h1, if_false]

theorem wf_memWrite (m : Memory) (a n v : Nat) (h : m.wf = true) : (memWrite m a n v).wf = true := by
  induction n generalizing m a v with
  | zero => exact h
  | succ n ih => exact ih _ _ _ (Memory.wf_write m a _ h)

theorem mem_memWrite (m : Memory) (a n v : Nat) (e : Host.Cell) (h : e ∈ memWrite m a n v) :
    (a ≤ e.1 ∧ e.1 < a + n) ∨ e ∈ m := by
  induction n generalizing m a v with
  | zero => exact .inr h
  | succ n ih =>
    rcases ih _ _ _ h with h | h
    · left; omega
    · rcases Memory.mem_write _ _ _ _ h with h | h
      · left; omega
      · exact .inr h

/-- `MemRead` after `MemWrite` at the same place gives the value, cut to its bytes. -/
theorem memRead_memWrite (m : Memory) (a n v : Nat) : memRead (memWrite m a n v) a n = v % 256 ^ n := by
  induction n generalizing m a v with
  | zero => simp [memRead, Nat.mod_one]
  | succ n ih =>
    have h1 : (memWrite m a (n + 1) v).read a = BitVec.ofNat 8 v := by
      rw [read_memWrite]; simp
    simp only [memRead, h1]
    have h2 : memWrite m a (n + 1) v = memWrite (m.write a (BitVec.ofNat 8 v)) (a + 1) n (v / 256) := rfl
    rw [h2, ih, pow_succ']
    simp only [BitVec.toNat_ofNat]
    exact (Nat.mod_mul).symm

/-- Freely drawn bytes change nothing outside their range. -/
theorem read_memFree (m : Memory) (a d n c : Nat) :
    (memFree m a d n).read c = if a ≤ c ∧ c < a + n then Config.freeByte (d + (c - a)) else m.read c := by
  induction n generalizing m a d with
  | zero =>
    have : ¬ (a ≤ c ∧ c < a + 0) := by omega
    simp only [memFree, this, if_false]
  | succ n ih =>
    simp only [memFree, ih, Memory.read_write]
    by_cases h1 : c = a
    · subst h1
      simp
    · by_cases h2 : a + 1 ≤ c ∧ c < a + 1 + n
      · have h3 : a ≤ c ∧ c < a + (n + 1) := by omega
        have h4 : d + 1 + (c - (a + 1)) = d + (c - a) := by omega
        simp only [h2, h3, and_self, if_true, h4]
      · have h3 : ¬ (a ≤ c ∧ c < a + (n + 1)) := by omega
        simp only [h2, h3, h1, if_false]

theorem wf_memFree (m : Memory) (a d n : Nat) (h : m.wf = true) : (memFree m a d n).wf = true := by
  induction n generalizing m a d with
  | zero => exact h
  | succ n ih => exact ih _ _ _ (Memory.wf_write m a _ h)

theorem mem_memFree (m : Memory) (a d n : Nat) (e : Host.Cell) (h : e ∈ memFree m a d n) :
    (a ≤ e.1 ∧ e.1 < a + n) ∨ e ∈ m := by
  induction n generalizing m a d with
  | zero => exact .inr h
  | succ n ih =>
    rcases ih _ _ _ h with h | h
    · left; omega
    · rcases Memory.mem_write _ _ _ _ h with h | h
      · left; omega
      · exact .inr h

end Sys2Proof.Machine
end

