-- ==== Sys2Proof/Laws/Operands.lean ====
section
/-! SUPPORT. Laws of the views (20_memory.md R51 to R59): what a destination write leaves, and that a write
inside the destination view changes no source element of a command whose views are disjoint. -/

namespace Sys2Proof.Machine

theorem CharWidth.bytes_pos (cw : CharWidth) : 0 < cw.bytes := by cases cw <;> decide

theorem esSrc_pos (i : Instr) : 0 < esSrc i := by cases i <;> decide

theorem esDst_pos (i : Instr) : 0 < esDst i := by cases i <;> decide

@[simp] theorem Job.dstAddr_zero (j : Job) : j.dstAddr 0 = j.dst := by simp [Job.dstAddr]

theorem Job.dstAddr_succ (j : Job) (k : Nat) : j.dstAddr (k + 1) = j.dstAddr k + esDst j.instr := by
  simp [Job.dstAddr, Nat.add_mul, Nat.add_assoc]

theorem Job.srcAddr_succ (j : Job) (k : Nat) : j.srcAddr (k + 1) = j.srcAddr k + esSrc j.instr := by
  simp [Job.srcAddr, Nat.add_mul, Nat.add_assoc]

theorem Job.dstAddr_mono (j : Job) {k l : Nat} (h : k ≤ l) : j.dstAddr k ≤ j.dstAddr l := by
  simp only [Job.dstAddr]; exact Nat.add_le_add_left (Nat.mul_le_mul_right _ h) _

theorem Job.srcAddr_mono (j : Job) {k l : Nat} (h : k ≤ l) : j.srcAddr k ≤ j.srcAddr l := by
  simp only [Job.srcAddr]; exact Nat.add_le_add_left (Nat.mul_le_mul_right _ h) _

theorem Job.inSrc_iff (j : Job) (a : Nat) : j.inSrc a = true ↔ j.src ≤ a ∧ a < j.srcEnd := by
  simp [Job.inSrc]

theorem Job.inDst_iff (j : Job) (a : Nat) : j.inDst a = true ↔ j.dst ≤ a ∧ a < j.dstEnd := by
  simp [Job.inDst]

/-- `viewsDisjoint` says that no byte lies in both views (R59). -/
theorem Job.viewsDisjoint_iff (j : Job) :
    j.viewsDisjoint = true ↔ ∀ a, ¬ (j.inSrc a = true ∧ j.inDst a = true) := by
  simp only [Job.viewsDisjoint, Job.inSrc, Job.inDst, Bool.or_eq_true, Bool.and_eq_true, decide_eq_true_eq]
  constructor
  · intro h a; omega
  · intro h
    by_contra hc
    have h1 := h j.src
    have h2 := h j.dst
    omega

/-- The views of a command that is not refused (R58, R59). -/
theorem viewRefusal_none {p : Params} {j : Job} (h : viewRefusal p j = none) :
    j.srcEnd ≤ 2 ^ p.addrBits ∧ j.dstEnd ≤ 2 ^ p.addrBits ∧ j.viewsDisjoint = true := by
  unfold viewRefusal at h
  split at h
  · split at h
    · rename_i h1 h2
      simp [Job.viewsInside] at h1
      exact ⟨h1.1, h1.2, h2⟩
    · simp at h
  · simp at h

/-- Where memory stands when destination elements `0 .. n - 1` of command `j` have been written, element `k`
with `want k`, over memory `m0`. -/
def Written (j : Job) (m0 : Memory) (want : Nat → Nat) (n : Nat) (m : Memory) : Prop :=
  ∀ a, m.read a =
    if j.dst ≤ a ∧ a < j.dstAddr n then
      BitVec.ofNat 8 (want ((a - j.dst) / esDst j.instr) / 256 ^ ((a - j.dst) % esDst j.instr))
    else m0.read a

theorem written_zero (j : Job) (m0 : Memory) (want : Nat → Nat) : Written j m0 want 0 m0 := by
  intro a
  have : ¬ (j.dst ≤ a ∧ a < j.dstAddr 0) := by simp
  simp only [this, if_false]

/-- `DstWrite(n, want n)` writes the next element. -/
theorem written_succ {j : Job} {m0 m : Memory} {want : Nat → Nat} {n v : Nat} (hv : v = want n)
    (h : Written j m0 want n m) : Written j m0 want (n + 1) (dstWrite j m n v) := by
  subst hv
  intro a
  have hp := esDst_pos j.instr
  simp only [dstWrite, read_memWrite, h a, Job.dstAddr_succ]
  have hle : j.dst ≤ j.dstAddr n := by simp [Job.dstAddr]
  by_cases h1 : j.dstAddr n ≤ a ∧ a < j.dstAddr n + esDst j.instr
  · have h2 : j.dst ≤ a ∧ a < j.dstAddr n + esDst j.instr := by omega
    simp only [h1, h2, and_self, if_true]
    obtain ⟨d, hd⟩ : ∃ d, a = j.dstAddr n + d := ⟨a - j.dstAddr n, by omega⟩
    have hdlt : d < esDst j.instr := by omega
    have e1 : a - j.dst = d + esDst j.instr * n := by
      rw [hd]; simp only [Job.dstAddr]; rw [Nat.mul_comm]; omega
    have e2 : a - j.dstAddr n = d := by omega
    rw [e1, e2, Nat.add_mul_div_left _ _ hp, Nat.add_mul_mod_self_left, Nat.div_eq_of_lt hdlt,
      Nat.mod_eq_of_lt hdlt, Nat.zero_add]
  · simp only [h1, if_false]
    by_cases h2 : j.dst ≤ a ∧ a < j.dstAddr n
    · have h3 : j.dst ≤ a ∧ a < j.dstAddr n + esDst j.instr := by omega
      simp only [h2, h3, and_self, if_true]
    · have h3 : ¬ (j.dst ≤ a ∧ a < j.dstAddr n + esDst j.instr) := by omega
      simp only [h2, h3, if_false]

/-- A block store writes its elements in order. -/
theorem written_all {j : Job} {m0 : Memory} {want : Nat → Nat} (vs : List Nat) {m : Memory} {n : Nat}
    (hv : ∀ k (hk : k < vs.length), vs[k] = want (n + k)) (h : Written j m0 want n m) :
    Written j m0 want (n + vs.length) (dstWriteAll j m n vs) := by
  induction vs generalizing m n with
  | nil => exact h
  | cons v vs ih =>
    have h0 := hv 0 (by simp)
    simp only [List.getElem_cons_zero, Nat.add_zero] at h0
    have := ih (m := dstWrite j m n v) (n := n + 1)
      (fun k hk => by
        have := hv (k + 1) (by simp; omega)
        simp only [List.getElem_cons_succ] at this
        rw [this]; congr 1; omega)
      (written_succ h0 h)
    rw [List.length_cons, show n + (vs.length + 1) = n + 1 + vs.length by omega]
    exact this

/-- No byte outside the elements written has changed. -/
theorem Written.outside {j : Job} {m0 m : Memory} {want : Nat → Nat} {n : Nat} (h : Written j m0 want n m)
    (a : Nat) (ha : a < j.dst ∨ j.dstAddr n ≤ a) : m.read a = m0.read a := by
  rw [h a]
  have : ¬ (j.dst ≤ a ∧ a < j.dstAddr n) := by omega
  simp only [this, if_false]

theorem memRead_eq_of_bytes (m : Memory) (v a n : Nat)
    (h : ∀ d < n, m.read (a + d) = BitVec.ofNat 8 (v / 256 ^ d)) : memRead m a n = v % 256 ^ n := by
  induction n generalizing a v with
  | zero => simp [memRead, Nat.mod_one]
  | succ n ih =>
    have h0 := h 0 (by omega)
    simp only [Nat.add_zero, pow_zero, Nat.div_one] at h0
    simp only [memRead, h0]
    rw [ih (v / 256) (a + 1) fun d hd => ?_]
    · rw [pow_succ']
      simp only [BitVec.toNat_ofNat]
      exact (Nat.mod_mul).symm
    · have := h (d + 1) (by omega)
      rw [show a + 1 + d = a + (d + 1) by omega, this, pow_succ', Nat.div_div_eq_div_mul]

/-- A written element holds its value, cut to the element's bytes. -/
theorem Written.elem {j : Job} {m0 m : Memory} {want : Nat → Nat} {n k : Nat} (h : Written j m0 want n m)
    (hk : k < n) : dstRead j m k = want k % 256 ^ esDst j.instr := by
  apply memRead_eq_of_bytes
  intro d hd
  have hp := esDst_pos j.instr
  have hm := j.dstAddr_mono (show k + 1 ≤ n by omega)
  rw [Job.dstAddr_succ] at hm
  have hle : j.dst ≤ j.dstAddr k := by simp [Job.dstAddr]
  have h2 : j.dst ≤ j.dstAddr k + d ∧ j.dstAddr k + d < j.dstAddr n := by omega
  rw [h]
  simp only [h2, and_self, if_true]
  have e1 : j.dstAddr k + d - j.dst = d + esDst j.instr * k := by
    simp only [Job.dstAddr]; rw [Nat.mul_comm]; omega
  rw [e1, Nat.add_mul_div_left _ _ hp, Nat.add_mul_mod_self_left, Nat.div_eq_of_lt hd,
    Nat.mod_eq_of_lt hd, Nat.zero_add]

/-- Writing inside the destination view changes no source element (R59). -/
theorem srcRead_of_outside {j : Job} {m0 m : Memory} (hd : j.viewsDisjoint = true)
    (h : ∀ a, a < j.dst ∨ j.dstEnd ≤ a → m.read a = m0.read a) {k : Nat} (hk : k < j.len) :
    srcRead j m k = srcRead j m0 k := by
  apply memRead_congr
  intro c h1 h2
  apply h
  have hm := j.srcAddr_mono (show k + 1 ≤ j.len by omega)
  rw [Job.srcAddr_succ] at hm
  have h0 : j.src ≤ j.srcAddr k := by simp [Job.srcAddr]
  by_contra hc
  refine (Job.viewsDisjoint_iff j).mp hd c ⟨?_, ?_⟩
  · rw [Job.inSrc_iff]; simp only [Job.srcEnd]; omega
  · rw [Job.inDst_iff]; omega

theorem Written.srcRead {j : Job} {m0 m : Memory} {want : Nat → Nat} {n : Nat} (h : Written j m0 want n m)
    (hd : j.viewsDisjoint = true) (hn : n ≤ j.cap) {k : Nat} (hk : k < j.len) :
    Machine.srcRead j m k = Machine.srcRead j m0 k :=
  srcRead_of_outside hd (fun a ha => h.outside a (by
    have := j.dstAddr_mono hn
    simp only [Job.dstEnd] at ha
    omega)) hk

/-- Two commands with the same destination that have written the same elements over memories that read the
same leave memories that read the same. -/
theorem Written.congr {j j' : Job} {m0 m0' m m' : Memory} {want want' : Nat → Nat} {n : Nat}
    (hi : j.instr = j'.instr) (hd : j.dst = j'.dst) (h0 : ∀ a, m0.read a = m0'.read a)
    (hw : ∀ k < n, want k = want' k) (h : Written j m0 want n m) (h' : Written j' m0' want' n m') (a : Nat) :
    m.read a = m'.read a := by
  have hp := esDst_pos j'.instr
  have ha : j.dstAddr n = j'.dstAddr n := by simp [Job.dstAddr, hi, hd]
  rw [h a, h' a, ha, hd, hi]
  by_cases hc : j'.dst ≤ a ∧ a < j'.dstAddr n
  · rw [if_pos hc, if_pos hc, hw]
    rw [Nat.div_lt_iff_lt_mul hp]
    simp only [Job.dstAddr] at hc
    omega
  · rw [if_neg hc, if_neg hc, h0]

/-- Two memories in the canonical form with the same elements written over the same memory are equal. -/
theorem Written.unique {j : Job} {m0 m m' : Memory} {want : Nat → Nat} {n : Nat} (hm : m.wf = true)
    (hm' : m'.wf = true) (h : Written j m0 want n m) (h' : Written j m0 want n m') : m = m' :=
  Memory.ext_read hm hm' fun a => by rw [h a, h' a]

/-- A block store changes nothing outside its elements. -/
theorem read_dstWriteAll (j : Job) (m : Memory) (k : Nat) (vs : List Nat) (a : Nat)
    (h : a < j.dstAddr k ∨ j.dstAddr (k + vs.length) ≤ a) : (dstWriteAll j m k vs).read a = m.read a := by
  induction vs generalizing m k with
  | nil => rfl
  | cons v vs ih =>
    rw [List.length_cons, show k + (vs.length + 1) = k + 1 + vs.length by omega] at h
    have h1 := j.dstAddr_succ k
    have h2 := j.dstAddr_mono (show k + 1 ≤ k + 1 + vs.length by omega)
    rw [dstWriteAll, ih _ _ (by omega), dstWrite, read_memWrite, if_neg (by omega)]

theorem wf_dstWriteAll (j : Job) (m : Memory) (k : Nat) (vs : List Nat) (h : m.wf = true) :
    (dstWriteAll j m k vs).wf = true := by
  induction vs generalizing m k with
  | nil => exact h
  | cons v vs ih => exact ih _ _ (wf_memWrite _ _ _ _ h)

/-- A block store lists no address but those of its elements and those listed before. -/
theorem mem_dstWriteAll (j : Job) (m : Memory) (k : Nat) (vs : List Nat) (e : Host.Cell)
    (h : e ∈ dstWriteAll j m k vs) : e.1 < j.dstAddr (k + vs.length) ∨ e ∈ m := by
  induction vs generalizing m k with
  | nil => exact .inr h
  | cons v vs ih =>
    rw [List.length_cons, show k + (vs.length + 1) = k + 1 + vs.length by omega]
    have h1 := j.dstAddr_succ k
    have h2 := j.dstAddr_mono (show k + 1 ≤ k + 1 + vs.length by omega)
    rcases ih _ _ h with h3 | h3
    · exact .inl h3
    · rcases mem_memWrite _ _ _ _ _ h3 with h4 | h4
      · left; omega
      · exact .inr h4

theorem srcRead_lt (j : Job) (m : Memory) (k : Nat) : srcRead j m k < 256 ^ esSrc j.instr :=
  memRead_lt _ _ _

end Sys2Proof.Machine
end

