-- ==== Sys2Proof/Laws/State.lean ====
section
/-! SUPPORT. One lemma per field and update of State, so that no proof unfolds an update; and what the
shared updates keep. -/

namespace Sys2Proof.Machine

@[simp] theorem startCommand_params (j : Job) (s : State) : (startCommand j s).params = s.params := rfl
@[simp] theorem startCommand_cmd (j : Job) (s : State) : (startCommand j s).cmd = s.cmd := rfl
@[simp] theorem startCommand_status (j : Job) (s : State) : (startCommand j s).status = .busy j := rfl
@[simp] theorem startCommand_srcBase (j : Job) (s : State) : (startCommand j s).srcBase = s.srcBase := rfl
@[simp] theorem startCommand_srcLen (j : Job) (s : State) : (startCommand j s).srcLen = s.srcLen := rfl
@[simp] theorem startCommand_dstBase (j : Job) (s : State) : (startCommand j s).dstBase = s.dstBase := rfl
@[simp] theorem startCommand_dstCap (j : Job) (s : State) : (startCommand j s).dstCap = s.dstCap := rfl
@[simp] theorem startCommand_inOff (j : Job) (s : State) : (startCommand j s).inOff = 0 := rfl
@[simp] theorem startCommand_outOff (j : Job) (s : State) : (startCommand j s).outOff = 0 := rfl
@[simp] theorem startCommand_vec (j : Job) (s : State) : (startCommand j s).vec = s.vec := rfl
@[simp] theorem startCommand_mem (j : Job) (s : State) : (startCommand j s).mem = s.mem := rfl
@[simp] theorem startCommand_queue (j : Job) (s : State) : (startCommand j s).queue = s.queue := rfl
@[simp] theorem startCommand_rdData (j : Job) (s : State) : (startCommand j s).rdData = s.rdData := rfl
@[simp] theorem startCommand_draws (j : Job) (s : State) : (startCommand j s).draws = s.draws := rfl

@[simp] theorem endCommand_params (st : Status) (s : State) : (endCommand st s).params = s.params := rfl
@[simp] theorem endCommand_cmd (st : Status) (s : State) : (endCommand st s).cmd = s.cmd := rfl
@[simp] theorem endCommand_status (st : Status) (s : State) : (endCommand st s).status = st := rfl
@[simp] theorem endCommand_srcBase (st : Status) (s : State) : (endCommand st s).srcBase = s.srcBase := rfl
@[simp] theorem endCommand_srcLen (st : Status) (s : State) : (endCommand st s).srcLen = s.srcLen := rfl
@[simp] theorem endCommand_dstBase (st : Status) (s : State) : (endCommand st s).dstBase = s.dstBase := rfl
@[simp] theorem endCommand_dstCap (st : Status) (s : State) : (endCommand st s).dstCap = s.dstCap := rfl
@[simp] theorem endCommand_inOff (st : Status) (s : State) : (endCommand st s).inOff = Config.freeOffset s.draws := rfl
@[simp] theorem endCommand_outOff (st : Status) (s : State) : (endCommand st s).outOff = Config.freeOffset (s.draws + 1) := rfl
@[simp] theorem endCommand_vec (st : Status) (s : State) : (endCommand st s).vec = Config.freeVec s.draws := rfl
@[simp] theorem endCommand_mem (st : Status) (s : State) : (endCommand st s).mem = s.mem := rfl
@[simp] theorem endCommand_queue (st : Status) (s : State) : (endCommand st s).queue = s.queue := rfl
@[simp] theorem endCommand_rdData (st : Status) (s : State) : (endCommand st s).rdData = s.rdData := rfl
@[simp] theorem endCommand_draws (st : Status) (s : State) : (endCommand st s).draws = s.draws + 2 := rfl

@[simp] theorem freeDst_params (j : Job) (k : Nat) (s : State) : (freeDst j k s).params = s.params := rfl
@[simp] theorem freeDst_cmd (j : Job) (k : Nat) (s : State) : (freeDst j k s).cmd = s.cmd := rfl
@[simp] theorem freeDst_status (j : Job) (k : Nat) (s : State) : (freeDst j k s).status = s.status := rfl
@[simp] theorem freeDst_srcBase (j : Job) (k : Nat) (s : State) : (freeDst j k s).srcBase = s.srcBase := rfl
@[simp] theorem freeDst_srcLen (j : Job) (k : Nat) (s : State) : (freeDst j k s).srcLen = s.srcLen := rfl
@[simp] theorem freeDst_dstBase (j : Job) (k : Nat) (s : State) : (freeDst j k s).dstBase = s.dstBase := rfl
@[simp] theorem freeDst_dstCap (j : Job) (k : Nat) (s : State) : (freeDst j k s).dstCap = s.dstCap := rfl
@[simp] theorem freeDst_inOff (j : Job) (k : Nat) (s : State) : (freeDst j k s).inOff = s.inOff := rfl
@[simp] theorem freeDst_outOff (j : Job) (k : Nat) (s : State) : (freeDst j k s).outOff = s.outOff := rfl
@[simp] theorem freeDst_vec (j : Job) (k : Nat) (s : State) : (freeDst j k s).vec = s.vec := rfl
@[simp] theorem freeDst_mem (j : Job) (k : Nat) (s : State) : (freeDst j k s).mem = memFree s.mem (j.dst + k) s.draws (j.cap - k) := rfl
@[simp] theorem freeDst_queue (j : Job) (k : Nat) (s : State) : (freeDst j k s).queue = s.queue := rfl
@[simp] theorem freeDst_rdData (j : Job) (k : Nat) (s : State) : (freeDst j k s).rdData = s.rdData := rfl
@[simp] theorem freeDst_draws (j : Job) (k : Nat) (s : State) : (freeDst j k s).draws = s.draws + (j.cap - k) := rfl

@[simp] theorem raiseIllegalCmd_params  (s : State) : (raiseIllegalCmd s).params = s.params := rfl
@[simp] theorem raiseIllegalCmd_cmd  (s : State) : (raiseIllegalCmd s).cmd = s.cmd := rfl
@[simp] theorem raiseIllegalCmd_status  (s : State) : (raiseIllegalCmd s).status = .errIllegalCmd := rfl
@[simp] theorem raiseIllegalCmd_srcBase  (s : State) : (raiseIllegalCmd s).srcBase = s.srcBase := rfl
@[simp] theorem raiseIllegalCmd_srcLen  (s : State) : (raiseIllegalCmd s).srcLen = s.srcLen := rfl
@[simp] theorem raiseIllegalCmd_dstBase  (s : State) : (raiseIllegalCmd s).dstBase = s.dstBase := rfl
@[simp] theorem raiseIllegalCmd_dstCap  (s : State) : (raiseIllegalCmd s).dstCap = s.dstCap := rfl
@[simp] theorem raiseIllegalCmd_inOff  (s : State) : (raiseIllegalCmd s).inOff = s.inOff := rfl
@[simp] theorem raiseIllegalCmd_outOff  (s : State) : (raiseIllegalCmd s).outOff = s.outOff := rfl
@[simp] theorem raiseIllegalCmd_vec  (s : State) : (raiseIllegalCmd s).vec = s.vec := rfl
@[simp] theorem raiseIllegalCmd_mem  (s : State) : (raiseIllegalCmd s).mem = s.mem := rfl
@[simp] theorem raiseIllegalCmd_queue  (s : State) : (raiseIllegalCmd s).queue = s.queue := rfl
@[simp] theorem raiseIllegalCmd_rdData  (s : State) : (raiseIllegalCmd s).rdData = s.rdData := rfl
@[simp] theorem raiseIllegalCmd_draws  (s : State) : (raiseIllegalCmd s).draws = s.draws := rfl

@[simp] theorem advance_dec_params  (s : State) : (advance .dec s).params = s.params := rfl
@[simp] theorem advance_dec_cmd  (s : State) : (advance .dec s).cmd = s.cmd := rfl
@[simp] theorem advance_dec_status  (s : State) : (advance .dec s).status = s.status := rfl
@[simp] theorem advance_dec_srcBase  (s : State) : (advance .dec s).srcBase = s.srcBase := rfl
@[simp] theorem advance_dec_srcLen  (s : State) : (advance .dec s).srcLen = s.srcLen := rfl
@[simp] theorem advance_dec_dstBase  (s : State) : (advance .dec s).dstBase = s.dstBase := rfl
@[simp] theorem advance_dec_dstCap  (s : State) : (advance .dec s).dstCap = s.dstCap := rfl
@[simp] theorem advance_dec_inOff  (s : State) : (advance .dec s).inOff = s.inOff + blockChars s.params.tier := rfl
@[simp] theorem advance_dec_outOff  (s : State) : (advance .dec s).outOff = s.outOff + blockBytes s.params.tier := rfl
@[simp] theorem advance_dec_vec  (s : State) : (advance .dec s).vec = s.vec := rfl
@[simp] theorem advance_dec_mem  (s : State) : (advance .dec s).mem = s.mem := rfl
@[simp] theorem advance_dec_queue  (s : State) : (advance .dec s).queue = s.queue := rfl
@[simp] theorem advance_dec_rdData  (s : State) : (advance .dec s).rdData = s.rdData := rfl
@[simp] theorem advance_dec_draws  (s : State) : (advance .dec s).draws = s.draws := rfl

@[simp] theorem advance_enc_params  (s : State) : (advance .enc s).params = s.params := rfl
@[simp] theorem advance_enc_cmd  (s : State) : (advance .enc s).cmd = s.cmd := rfl
@[simp] theorem advance_enc_status  (s : State) : (advance .enc s).status = s.status := rfl
@[simp] theorem advance_enc_srcBase  (s : State) : (advance .enc s).srcBase = s.srcBase := rfl
@[simp] theorem advance_enc_srcLen  (s : State) : (advance .enc s).srcLen = s.srcLen := rfl
@[simp] theorem advance_enc_dstBase  (s : State) : (advance .enc s).dstBase = s.dstBase := rfl
@[simp] theorem advance_enc_dstCap  (s : State) : (advance .enc s).dstCap = s.dstCap := rfl
@[simp] theorem advance_enc_inOff  (s : State) : (advance .enc s).inOff = s.inOff + blockBytes s.params.tier := rfl
@[simp] theorem advance_enc_outOff  (s : State) : (advance .enc s).outOff = s.outOff + blockChars s.params.tier := rfl
@[simp] theorem advance_enc_vec  (s : State) : (advance .enc s).vec = s.vec := rfl
@[simp] theorem advance_enc_mem  (s : State) : (advance .enc s).mem = s.mem := rfl
@[simp] theorem advance_enc_queue  (s : State) : (advance .enc s).queue = s.queue := rfl
@[simp] theorem advance_enc_rdData  (s : State) : (advance .enc s).rdData = s.rdData := rfl
@[simp] theorem advance_enc_draws  (s : State) : (advance .enc s).draws = s.draws := rfl

@[simp] theorem resetOf_params (p : Params) : (State.resetOf p).params = p := rfl
@[simp] theorem resetOf_cmd (p : Params) : (State.resetOf p).cmd = 0 := rfl
@[simp] theorem resetOf_status (p : Params) : (State.resetOf p).status = .idle := rfl
@[simp] theorem resetOf_srcBase (p : Params) : (State.resetOf p).srcBase = 0 := rfl
@[simp] theorem resetOf_srcLen (p : Params) : (State.resetOf p).srcLen = 0 := rfl
@[simp] theorem resetOf_dstBase (p : Params) : (State.resetOf p).dstBase = 0 := rfl
@[simp] theorem resetOf_dstCap (p : Params) : (State.resetOf p).dstCap = 0 := rfl
@[simp] theorem resetOf_mem (p : Params) : (State.resetOf p).mem = [] := rfl
@[simp] theorem resetOf_queue (p : Params) : (State.resetOf p).queue = [] := rfl

@[simp] theorem sampleJob_instr (i : Instr) (s : State) : (sampleJob i s).instr = i := rfl
@[simp] theorem sampleJob_src (i : Instr) (s : State) : (sampleJob i s).src = s.srcBase := rfl
@[simp] theorem sampleJob_len (i : Instr) (s : State) : (sampleJob i s).len = s.srcLen := rfl
@[simp] theorem sampleJob_dst (i : Instr) (s : State) : (sampleJob i s).dst = s.dstBase := rfl
@[simp] theorem sampleJob_cap (i : Instr) (s : State) : (sampleJob i s).cap = s.dstCap := rfl
@[simp] theorem sampleJob_phase (i : Instr) (s : State) : (sampleJob i s).phase = .check := rfl

@[simp] theorem finish_eq (s : State) : finish s = endCommand .ok s := rfl

@[simp] theorem raiseCapacity_eq (s : State) : raiseCapacity s = endCommand .errCapacity s := rfl

theorem raiseInvalidChar_reference (j : Job) (s : State) (h : s.params.failOutput = .reference) :
    raiseInvalidChar j s = endCommand .errInvalidChar s := by
  simp [raiseInvalidChar, h]

theorem raiseInvalidChar_contract (j : Job) (s : State) (h : s.params.failOutput = .contract) :
    raiseInvalidChar j s = endCommand .errInvalidChar (freeDst j s.outOff s) := by
  simp [raiseInvalidChar, h]

@[simp] theorem raiseInvalidChar_status (j : Job) (s : State) :
    (raiseInvalidChar j s).status = .errInvalidChar := by
  unfold raiseInvalidChar; split <;> rfl

theorem RegsKept.refl (s : State) : RegsKept s s := ⟨rfl, rfl, rfl, rfl, rfl, rfl, rfl, rfl⟩

theorem RegsKept.trans {s t u : State} (h : RegsKept s t) (h' : RegsKept t u) : RegsKept s u := by
  obtain ⟨a1, a2, a3, a4, a5, a6, a7, a8⟩ := h
  obtain ⟨b1, b2, b3, b4, b5, b6, b7, b8⟩ := h'
  exact ⟨b1.trans a1, b2.trans a2, b3.trans a3, b4.trans a4, b5.trans a5, b6.trans a6, b7.trans a7,
    b8.trans a8⟩

theorem regsKept_startCommand (j : Job) (s : State) : RegsKept s (startCommand j s) :=
  ⟨rfl, rfl, rfl, rfl, rfl, rfl, rfl, rfl⟩

theorem regsKept_endCommand (st : Status) (s : State) : RegsKept s (endCommand st s) :=
  ⟨rfl, rfl, rfl, rfl, rfl, rfl, rfl, rfl⟩

theorem regsKept_raiseInvalidChar (j : Job) (s : State) : RegsKept s (raiseInvalidChar j s) := by
  unfold raiseInvalidChar
  split <;> exact ⟨rfl, rfl, rfl, rfl, rfl, rfl, rfl, rfl⟩

theorem regsKept_advance (op : Op) (s : State) : RegsKept s (advance op s) := by
  cases op <;> exact ⟨rfl, rfl, rfl, rfl, rfl, rfl, rfl, rfl⟩

/-- What InvalidCharacterError leaves of memory (R226, R228): under `reference` all of it, under `contract`
all of it but `d[OUT_OFF .. DST_CAP)`. -/
theorem raiseInvalidChar_mem (j : Job) (s : State) :
    (raiseInvalidChar j s).mem =
      match s.params.failOutput with
      | .reference => s.mem
      | .contract => memFree s.mem (j.dst + s.outOff) s.draws (j.cap - s.outOff) := by
  unfold raiseInvalidChar
  split <;> simp_all

end Sys2Proof.Machine
end

