-- ==== Sys2Proof/Laws/Tables.lean ====
section
/-! SUPPORT. Laws of the Lookup Tables (40_lookup_tables.md R100 to R105). -/

namespace Sys2Proof.Machine

set_option maxRecDepth 4000 in
/-- A valid entry holds a nibble (R103). -/
theorem c2n_lt (x : Byte) (h : c2n x ≠ INVALID) : (c2n x).toNat < 16 := by
  revert x; decide

theorem lookup_ne_invalid {cw : CharWidth} {u : Nat} (h : lookup cw u ≠ INVALID) :
    lookup cw u = c2n (BitVec.ofNat 8 u) ∧ (1 < cw.bytes → u ≤ 0xFF) := by
  unfold lookup at h ⊢
  split at h
  · exact absurd rfl h
  · rename_i hn
    exact ⟨if_neg hn, fun h1 => by omega⟩

theorem lookup_lt {cw : CharWidth} {u : Nat} (h : lookup cw u ≠ INVALID) : (lookup cw u).toNat < 16 := by
  have e := (lookup_ne_invalid h).1
  rw [e] at h ⊢
  exact c2n_lt _ h

theorem n2c_lt (n : BitVec 4) : (n2c n).toNat < 256 := (n2c n).isLt

end Sys2Proof.Machine
end

