-- ==== Sys2Proof/Laws/Scalar.lean ====
section
/-! SUPPORT. Laws of the Scalar Engine (41_scalar_engine.md): how far a running command has got, one pair
and one byte, and the pair loop and the byte loop. -/

namespace Sys2Proof.Machine

/-- Character `k` of the string in memory `m` is a hex digit. -/
def ValidAt (j : Job) (m : Memory) (k : Nat) : Prop := lookup j.instr.cw (srcRead j m k) ≠ INVALID

/-- The byte of pair `p` of the string in memory `m` (R122). -/
def decWant (j : Job) (m : Memory) (p : Nat) : Nat :=
  ((lookup j.instr.cw (srcRead j m (2 * p)) <<< 4) ||| lookup j.instr.cw (srcRead j m (2 * p + 1))).toNat

/-- The character `k` of the text of the bytes in memory `m` (R128). -/
def encWant (j : Job) (m : Memory) (k : Nat) : Nat :=
  let b : Byte := BitVec.ofNat 8 (srcRead j m (k / 2))
  if k % 2 = 0 then charOf (b.extractLsb' 4 4) else charOf (b.extractLsb' 0 4)

/-- The command `j`, started in `s0`, has written destination elements `0 .. n - 1` and nothing else. -/
structure Prog (j : Job) (s0 : State) (want : Nat → Nat) (n : Nat) (s : State) : Prop where
  written : Written j s0.mem want n s.mem
  kept : RegsKept s0 s
  status : s.status = s0.status
  draws : s.draws = s0.draws
  wf : s0.mem.wf = true → s.mem.wf = true
  listed : ∀ e ∈ s.mem, (j.dst ≤ e.1 ∧ e.1 < j.dstAddr n) ∨ e ∈ s0.mem

theorem prog_zero (j : Job) (s0 : State) (want : Nat → Nat) : Prog j s0 want 0 s0 :=
  ⟨written_zero j _ want, RegsKept.refl _, rfl, rfl, id, fun _ h => .inr h⟩

/-- The offsets and the vector registers play no part in the progress of a command. -/
theorem Prog.congr {j : Job} {s0 s t : State} {want : Nat → Nat} {n : Nat} (h : Prog j s0 want n s)
    (hm : t.mem = s.mem) (hk : RegsKept s t) (hs : t.status = s.status) (hd : t.draws = s.draws) :
    Prog j s0 want n t := by
  refine ⟨?_, h.kept.trans hk, hs.trans h.status, hd.trans h.draws, ?_, ?_⟩ <;> rw [hm]
  · exact h.written
  · exact h.wf
  · exact h.listed

theorem prog_write {j : Job} {s0 s : State} {want : Nat → Nat} {n v : Nat} (hv : v = want n)
    (h : Prog j s0 want n s) : Prog j s0 want (n + 1) { s with mem := dstWrite j s.mem n v } := by
  refine ⟨written_succ hv h.written, h.kept.trans ⟨rfl, rfl, rfl, rfl, rfl, rfl, rfl, rfl⟩, h.status, h.draws,
    fun hw => wf_memWrite _ _ _ _ (h.wf hw), fun e he => ?_⟩
  have h0 : j.dst ≤ j.dstAddr n := by simp [Job.dstAddr]
  rw [Job.dstAddr_succ]
  rcases mem_memWrite _ _ _ _ _ he with h1 | h1
  · left; omega
  · rcases h.listed e h1 with h2 | h2
    · left; omega
    · exact .inr h2

theorem prog_writeAll {j : Job} {s0 : State} {want : Nat → Nat} (vs : List Nat) {s : State} {n : Nat}
    (hv : ∀ k (hk : k < vs.length), vs[k] = want (n + k)) (h : Prog j s0 want n s) :
    Prog j s0 want (n + vs.length) { s with mem := dstWriteAll j s.mem n vs } := by
  induction vs generalizing s n with
  | nil => exact h
  | cons v vs ih =>
    have h0 := hv 0 (by simp)
    simp only [List.getElem_cons_zero, Nat.add_zero] at h0
    have := ih (s := { s with mem := dstWrite j s.mem n v }) (n := n + 1)
      (fun k hk => by
        have := hv (k + 1) (by simp; omega)
        simp only [List.getElem_cons_succ] at this
        rw [this]; congr 1; omega)
      (prog_write h0 h)
    rw [List.length_cons, show n + (vs.length + 1) = n + 1 + vs.length by omega]
    exact this

theorem Prog.srcRead {j : Job} {s0 s : State} {want : Nat → Nat} {n k : Nat} (h : Prog j s0 want n s)
    (hd : j.viewsDisjoint = true) (hn : n ≤ j.cap) (hk : k < j.len) :
    Machine.srcRead j s.mem k = Machine.srcRead j s0.mem k :=
  h.written.srcRead hd hn hk

/-- One pair of `SDEC` (R122, R123), when pair `d0 + p` of the command is next. -/
theorem sdecPair_eq {j : Job} {s0 s : State} {d0 p : Nat} (h : Prog j s0 (decWant j s0.mem) (d0 + p) s)
    (hd : j.viewsDisjoint = true) (hn : d0 + p ≤ j.cap) (hk : 2 * (d0 + p) + 1 < j.len) :
    (ValidAt j s0.mem (2 * (d0 + p)) ∧ ValidAt j s0.mem (2 * (d0 + p) + 1) →
      sdecPair j (2 * d0) d0 p s =
        .go { s with mem := dstWrite j s.mem (d0 + p) (decWant j s0.mem (d0 + p)) }) ∧
    (¬ (ValidAt j s0.mem (2 * (d0 + p)) ∧ ValidAt j s0.mem (2 * (d0 + p) + 1)) →
      sdecPair j (2 * d0) d0 p s = .stop (raiseInvalidChar j s)) := by
  have e1 : 2 * d0 + 2 * p = 2 * (d0 + p) := by omega
  have r1 := h.srcRead hd hn (k := 2 * (d0 + p)) (by omega)
  have r2 := h.srcRead hd hn hk
  unfold sdecPair
  simp only [e1, r1, r2]
  constructor
  · rintro ⟨h1, h2⟩
    have : ¬ (lookup j.instr.cw (Machine.srcRead j s0.mem (2 * (d0 + p))) = INVALID ∨
        lookup j.instr.cw (Machine.srcRead j s0.mem (2 * (d0 + p) + 1)) = INVALID) := by
      rintro (h3 | h3)
      · exact h1 h3
      · exact h2 h3
    simp only [this, if_false]
    rfl
  · intro hv
    have : lookup j.instr.cw (Machine.srcRead j s0.mem (2 * (d0 + p))) = INVALID ∨
        lookup j.instr.cw (Machine.srcRead j s0.mem (2 * (d0 + p) + 1)) = INVALID := by
      by_contra hc
      rw [not_or] at hc
      exact hv hc
    simp only [this, if_true]

/-- The pair loop when every character is valid (R125). -/
theorem sdecLoop_ok {j : Job} {s0 : State} {d0 : Nat} (hd : j.viewsDisjoint = true) (n : Nat) {p : Nat}
    {s : State} (h : Prog j s0 (decWant j s0.mem) (d0 + p) s) (hn : d0 + p + n ≤ j.cap)
    (hk : 2 * (d0 + p + n) ≤ j.len)
    (hv : ∀ k, 2 * (d0 + p) ≤ k → k < 2 * (d0 + p + n) → ValidAt j s0.mem k) :
    ∃ s', repeatUnits (sdecPair j (2 * d0) d0) n p s = .go s' ∧
      Prog j s0 (decWant j s0.mem) (d0 + p + n) s' ∧ s'.inOff = s.inOff ∧ s'.outOff = s.outOff := by
  induction n generalizing p s with
  | zero => exact ⟨s, rfl, h, rfl, rfl⟩
  | succ n ih =>
    have h1 := (sdecPair_eq h hd (by omega) (by omega)).1 ⟨hv _ (by omega) (by omega), hv _ (by omega) (by omega)⟩
    have h2 := prog_write rfl h
    obtain ⟨s', e, h3, h4, h5⟩ := ih (p := p + 1) h2 (by omega) (by omega)
      (fun k ha hb => hv k (by omega) (by omega))
    refine ⟨s', ?_, ?_, h4, h5⟩
    · simp only [repeatUnits, h1, Flow.andThen, e]
    · rw [show d0 + p + (n + 1) = d0 + (p + 1) + n by omega]; exact h3

/-- The pair loop when character `e` is the first invalid one (R123). -/
theorem sdecLoop_bad {j : Job} {s0 : State} {d0 : Nat} (hd : j.viewsDisjoint = true) (n : Nat) {p e : Nat}
    {s : State} (h : Prog j s0 (decWant j s0.mem) (d0 + p) s) (hn : d0 + p + n ≤ j.cap)
    (hk : 2 * (d0 + p + n) ≤ j.len) (h1 : 2 * (d0 + p) ≤ e) (h2 : e < 2 * (d0 + p + n))
    (he : ¬ ValidAt j s0.mem e) (hv : ∀ k, 2 * (d0 + p) ≤ k → k < e → ValidAt j s0.mem k) :
    ∃ s', repeatUnits (sdecPair j (2 * d0) d0) n p s = .stop (raiseInvalidChar j s') ∧
      Prog j s0 (decWant j s0.mem) (e / 2) s' ∧ s'.inOff = s.inOff ∧ s'.outOff = s.outOff := by
  induction n generalizing p s with
  | zero => omega
  | succ n ih =>
    by_cases hc : e < 2 * (d0 + p) + 2
    · have hb : ¬ (ValidAt j s0.mem (2 * (d0 + p)) ∧ ValidAt j s0.mem (2 * (d0 + p) + 1)) := by
        rintro ⟨a, b⟩
        rcases (show e = 2 * (d0 + p) ∨ e = 2 * (d0 + p) + 1 by omega) with hh | hh <;> rw [hh] at he
        · exact he a
        · exact he b
      refine ⟨s, ?_, ?_, rfl, rfl⟩
      · simp only [repeatUnits, (sdecPair_eq h hd (by omega) (by omega)).2 hb, Flow.andThen]
      · rw [show e / 2 = d0 + p by omega]; exact h
    · have h3 := (sdecPair_eq h hd (by omega) (by omega)).1
        ⟨hv _ (by omega) (by omega), hv _ (by omega) (by omega)⟩
      have h7 := prog_write rfl h
      obtain ⟨s', ee, h4, h5, h6⟩ := ih (p := p + 1) h7 (by omega) (by omega) (by omega)
        (by omega) (fun k ha hb => hv k (by omega) hb)
      exact ⟨s', by simp only [repeatUnits, h3, Flow.andThen, ee], h4, h5, h6⟩

/-- One byte of `SENC` (R128), when byte `i0 + p` of the command is next. -/
theorem sencByte_eq {j : Job} {s0 s : State} {i0 p : Nat}
    (h : Prog j s0 (encWant j s0.mem) (2 * (i0 + p)) s) (hd : j.viewsDisjoint = true)
    (hn : 2 * (i0 + p) ≤ j.cap) (hk : i0 + p < j.len) :
    ∃ s', sencByte j i0 (2 * i0) p s = .go s' ∧ Prog j s0 (encWant j s0.mem) (2 * (i0 + p + 1)) s' ∧
      s'.inOff = s.inOff ∧ s'.outOff = s.outOff := by
  have r1 := h.srcRead hd hn hk
  have e1 : 2 * i0 + 2 * p = 2 * (i0 + p) := by omega
  refine ⟨_, rfl, ?_, rfl, rfl⟩
  simp only [r1, e1]
  have w1 : charOf ((BitVec.ofNat 8 (Machine.srcRead j s0.mem (i0 + p))).extractLsb' 4 4) =
      encWant j s0.mem (2 * (i0 + p)) := by
    simp [encWant]
  have w2 : charOf ((BitVec.ofNat 8 (Machine.srcRead j s0.mem (i0 + p))).extractLsb' 0 4) =
      encWant j s0.mem (2 * (i0 + p) + 1) := by
    simp only [encWant]
    rw [show (2 * (i0 + p) + 1) / 2 = i0 + p by omega, show (2 * (i0 + p) + 1) % 2 = 1 by omega]
    simp
  exact prog_write w2 (prog_write w1 h)

/-- The byte loop (R129). -/
theorem sencLoop {j : Job} {s0 : State} {i0 : Nat} (hd : j.viewsDisjoint = true) (n : Nat)
    {p : Nat} {s : State} (h : Prog j s0 (encWant j s0.mem) (2 * (i0 + p)) s)
    (hn : 2 * (i0 + p + n) ≤ j.cap) (hk : i0 + p + n ≤ j.len) :
    ∃ s', repeatUnits (sencByte j i0 (2 * i0)) n p s = .go s' ∧
      Prog j s0 (encWant j s0.mem) (2 * (i0 + p + n)) s' ∧ s'.inOff = s.inOff ∧ s'.outOff = s.outOff := by
  induction n generalizing p s with
  | zero => exact ⟨s, rfl, h, rfl, rfl⟩
  | succ n ih =>
    obtain ⟨s1, e1, h1, o1, o2⟩ := sencByte_eq h hd (by omega) (by omega)
    obtain ⟨s2, e2, h2, o3, o4⟩ := ih (p := p + 1) h1 (by omega) (by omega)
    refine ⟨s2, ?_, ?_, o3.trans o1, o4.trans o2⟩
    · simp only [repeatUnits, e1, Flow.andThen, e2]
    · rw [show i0 + p + (n + 1) = i0 + (p + 1) + n by omega]; exact h2

end Sys2Proof.Machine
end

