-- ==== Sys2Proof/Laws/VectorDecode.lean ====
section
/-! SUPPORT. Laws of the vector decode kernel (42_vector_decode.md): the register of lanes and the bank of
sub-registers, what one lane goes through in step 3 (R150), and the block step as one function (R154). -/

namespace Sys2Proof.Machine

@[simp] theorem length_lanes {α : Type} (n : Nat) (f : Nat → α) : (lanes n f).length = n := by
  simp [lanes]

@[simp] theorem getElem_lanes {α : Type} (n k : Nat) (f : Nat → α) (h : k < (lanes n f).length) :
    (lanes n f)[k] = f k := by
  simp [lanes]

theorem getD_lanes {α : Type} {n k : Nat} {f : Nat → α} {d : α} (h : k < n) : (lanes n f).getD k d = f k := by
  simp [lanes, List.getD, h]

theorem laneAt_lanes {n k : Nat} {f : Nat → Byte} (h : k < n) : laneAt (lanes n f) k = f k := getD_lanes h

@[simp] theorem map_lanes {α β : Type} (n : Nat) (f : Nat → α) (g : α → β) :
    (lanes n f).map g = lanes n fun k => g (f k) := by
  simp [lanes]

/-- The sub-registers one after the other are the `BLOCK_CHARS` lanes in order (R141). -/
theorem flatten_bank (t : Tier) (cw : CharWidth) (f : Nat → Lane) :
    (bank t cw f).flatten = lanes (blockChars t) f := by
  cases t <;> cases cw <;> rfl

/-- What step 3 leaves in one lane (R147). -/
def laneClass (x : Byte) : Byte :=
  let x1 := if inRange 0x30 0x39 x then x - 0x30 else x
  let x2 := if inRange 0x41 0x46 x1 then x1 - 0x37 else x1
  if inRange 0x61 0x66 x2 then x2 - 0x57 else x2

/-- The union of one lane's three masks (R149). -/
def laneUnion (x : Byte) : Byte :=
  let x1 := if inRange 0x30 0x39 x then x - 0x30 else x
  let x2 := if inRange 0x41 0x46 x1 then x1 - 0x37 else x1
  (if inRange 0x30 0x39 x then 0xFF else 0x00) ||| (if inRange 0x41 0x46 x1 then 0xFF else 0x00) |||
    (if inRange 0x61 0x66 x2 then 0xFF else 0x00)

set_option maxRecDepth 10000 in
/-- The case analysis of R150, on one lane. -/
theorem lane_cases (x : Byte) :
    (c2n x ≠ INVALID → laneClass x = c2n x) ∧ (laneUnion x = 0xFF ↔ c2n x ≠ INVALID) ∧
      ((~~~laneUnion x == 0) = true ↔ c2n x ≠ INVALID) := by
  revert x; decide

theorem classify_x (v : VecRegs) : (classify v).x = v.x.map laneClass := by
  simp [classify, subIfLanes, laneClass]

theorem maskUnion_classify (v : VecRegs) : maskUnion (classify v) = v.x.map laneUnion := by
  simp only [maskUnion, classify, subIfMask, subIfLanes, List.map_map]
  induction v.x with
  | nil => rfl
  | cons a as ih =>
    simp only [List.map_cons, List.zipWith_cons_cons, ih]
    rfl

/-- The block's validity test holds exactly when every lane is a hex digit (R149, R150). -/
theorem covered_classify (v : VecRegs) : covered (classify v) = true ↔ ∀ x ∈ v.x, c2n x ≠ INVALID := by
  simp only [covered, maskUnion_classify, List.all_map, List.all_eq_true]
  exact forall₂_congr fun x _ => (lane_cases x).2.2

/-- The range test fails exactly when some code unit exceeds 0xFF (R144). -/
theorem rangeFails_iff (t : Tier) (cw : CharWidth) (f : Nat → Lane) (v : VecRegs) (hv : v.w = bank t cw f) :
    rangeFails (rangeMask cw v) = true ↔ ∃ k < blockChars t, 0xFF < f k := by
  have ho : ¬ onesLane cw = 0#32 := by cases cw <;> decide
  have h1 : rangeFails (rangeMask cw v) = (bank t cw f).flatten.any (fun u => decide (0xFF < u)) := by
    simp only [rangeFails, rangeMask, hv, List.any_map, List.any_flatten]
    congr 1; funext r
    simp only [Function.comp, List.any_map]
    congr 1; funext u
    by_cases hu : (255#32 : Lane) < u <;> simp [hu, ho]
  rw [h1, flatten_bank]
  simp [lanes]

theorem lane_toNat {cw : CharWidth} {u : Nat} (h : u < 256 ^ cw.bytes) : (BitVec.ofNat 32 u).toNat = u := by
  simp only [BitVec.toNat_ofNat]
  apply Nat.mod_eq_of_lt
  cases cw <;> simp [CharWidth.bytes] at h <;> omega

/-- The block step on the registers (R154): it passes both tests exactly when every code unit of the block
is a hex digit, and then `P` holds the packed bytes. -/
theorem vdecRegs_spec (t : Tier) (cw : CharWidth) (rd : Nat → Nat) (i0 : Nat) (v : VecRegs)
    (hrd : ∀ k, rd k < 256 ^ cw.bytes) :
    ((vdecRegs t cw rd i0 v).2 = true ↔ ∀ k < blockChars t, lookup cw (rd (i0 + k)) ≠ INVALID) ∧
    ((vdecRegs t cw rd i0 v).2 = true → (vdecRegs t cw rd i0 v).1.p =
      lanes (blockBytes t) fun i =>
        (lookup cw (rd (i0 + 2 * i)) <<< 4) ||| lookup cw (rd (i0 + (2 * i + 1)))) := by
  have hw2 : (if 1 < cw.bytes then rangeMask cw (loadText t cw rd i0 v) else loadText t cw rd i0 v).w =
      bank t cw fun k => BitVec.ofNat 32 (rd (i0 + k)) := by
    split <;> rfl
  have hgt : ∀ k, (0xFF : Lane) < BitVec.ofNat 32 (rd (i0 + k)) ↔ 0xFF < rd (i0 + k) := by
    intro k
    rw [BitVec.lt_def, lane_toNat (hrd _)]
    rfl
  have hx : (repack (if 1 < cw.bytes then rangeMask cw (loadText t cw rd i0 v) else loadText t cw rd i0 v)).x
      = lanes (blockChars t) fun k => BitVec.ofNat 8 (rd (i0 + k)) := by
    simp only [repack, hw2, flatten_bank, map_lanes]
    congr 1; funext k
    apply BitVec.eq_of_toNat_eq
    rw [BitVec.toNat_setWidth, lane_toNat (hrd _), BitVec.toNat_ofNat]
  by_cases hr : 1 < cw.bytes ∧ ∃ k < blockChars t, 0xFF < rd (i0 + k)
  · have hf : (decide (1 < cw.bytes) &&
        rangeFails (if 1 < cw.bytes then rangeMask cw (loadText t cw rd i0 v) else loadText t cw rd i0 v)) = true := by
      simp only [hr.1, if_true, decide_true, Bool.true_and]
      rw [rangeFails_iff t cw (fun k => BitVec.ofNat 32 (rd (i0 + k))) _ rfl]
      obtain ⟨k, hk, h2⟩ := hr.2
      exact ⟨k, hk, (hgt k).mpr h2⟩
    have he : (vdecRegs t cw rd i0 v).2 = false := by
      simp only [vdecRegs, hf, if_true]
    rw [he]
    refine ⟨⟨fun h => (by simp at h), fun h => ?_⟩, fun h => (by simp at h)⟩
    obtain ⟨k, hk, h2⟩ := hr.2
    exact absurd (show lookup cw (rd (i0 + k)) = INVALID by simp [lookup, hr.1, h2]) (h k hk)
  · have hf : (decide (1 < cw.bytes) &&
        rangeFails (if 1 < cw.bytes then rangeMask cw (loadText t cw rd i0 v) else loadText t cw rd i0 v)) = false := by
      by_cases h1 : 1 < cw.bytes
      · simp only [h1, if_true, decide_true, Bool.true_and]
        rw [← Bool.not_eq_true, rangeFails_iff t cw (fun k => BitVec.ofNat 32 (rd (i0 + k))) _ rfl]
        rintro ⟨k, hk, h2⟩
        exact hr ⟨h1, k, hk, (hgt k).mp h2⟩
      · simp [h1]
    have hl : ∀ k < blockChars t, lookup cw (rd (i0 + k)) = c2n (BitVec.ofNat 8 (rd (i0 + k))) := by
      intro k hk
      have : ¬ (1 < cw.bytes ∧ 0xFF < rd (i0 + k)) := fun h => hr ⟨h.1, k, hk, h.2⟩
      simp [lookup, this]
    have hall : covered (classify (repack
        (if 1 < cw.bytes then rangeMask cw (loadText t cw rd i0 v) else loadText t cw rd i0 v))) = true ↔
        ∀ k < blockChars t, lookup cw (rd (i0 + k)) ≠ INVALID := by
      rw [covered_classify, hx]
      simp only [lanes, List.mem_map, List.mem_range, forall_exists_index, and_imp,
        forall_apply_eq_imp_iff₂]
      exact forall₂_congr fun k hk => by rw [hl k hk]
    by_cases hc : covered (classify (repack
        (if 1 < cw.bytes then rangeMask cw (loadText t cw rd i0 v) else loadText t cw rd i0 v))) = true
    · have he : vdecRegs t cw rd i0 v = (gather t (classify (repack
          (if 1 < cw.bytes then rangeMask cw (loadText t cw rd i0 v) else loadText t cw rd i0 v))), true) := by
        simp only [vdecRegs, hf, hc, if_true, Bool.false_eq_true, if_false]
      rw [he]
      refine ⟨by simpa using hall.mp hc, fun _ => ?_⟩
      have hv := hall.mp hc
      simp only [gather, classify_x, hx, map_lanes]
      apply List.ext_getElem (by simp)
      intro i h1 h2
      have hi : i < blockBytes t := by simpa using h1
      have hlt : 2 * i + 1 < blockChars t := by unfold blockBytes at hi; omega
      simp only [getElem_lanes]
      rw [laneAt_lanes hi, laneAt_lanes hi, laneAt_lanes (show 2 * i < blockChars t by omega), laneAt_lanes hlt]
      have a1 := hv (2 * i) (by omega)
      have a2 := hv (2 * i + 1) hlt
      rw [hl _ (by omega)] at a1
      rw [hl _ hlt] at a2
      rw [(lane_cases _).1 a1, (lane_cases _).1 a2, hl _ (by omega), hl _ hlt]
    · have he : (vdecRegs t cw rd i0 v).2 = false := by
        simp only [vdecRegs, hf, hc, Bool.false_eq_true, if_false]
      rw [he]
      exact ⟨⟨fun h => by simp at h, fun h => absurd (hall.mpr h) hc⟩, fun h => by simp at h⟩

end Sys2Proof.Machine
end

