-- ==== Sys2Proof/Laws/VectorEncode.lean ====
section
/-! SUPPORT. Laws of the vector encode kernel (43_vector_encode.md): the block step as one function (R178). -/

namespace Sys2Proof.Machine

/-- Lane `k` of a bank is the lane it was built with (R141, R173). -/
theorem bankAt_bank (t : Tier) (cw : CharWidth) (f : Nat → Lane) {k : Nat} (h : k < blockChars t) :
    bankAt t cw (bank t cw f) k = f k := by
  have hq : 0 < subLanes t cw ∧ subloads cw * subLanes t cw = blockChars t := by
    revert h; cases t <;> cases cw <;> simp [subLanes, subloads, blockChars, CharWidth.bytes]
  have h1 : k / subLanes t cw < subloads cw := by
    rw [Nat.div_lt_iff_lt_mul hq.1, hq.2]; exact h
  have h2 : k % subLanes t cw < subLanes t cw := Nat.mod_lt _ hq.1
  unfold bankAt bank
  rw [getD_lanes h1, getD_lanes h2, Nat.mul_comm, Nat.div_add_mod]

theorem bank_congr (t : Tier) (cw : CharWidth) {f g : Nat → Lane} (h : ∀ k < blockChars t, f k = g k) :
    bank t cw f = bank t cw g := by
  have hq : subloads cw * subLanes t cw = blockChars t := by
    cases t <;> cases cw <;> simp [subLanes, subloads, blockChars, CharWidth.bytes]
  unfold bank lanes
  apply List.map_congr_left
  intro j hj
  apply List.map_congr_left
  intro m hm
  apply h
  rw [List.mem_range] at hj hm
  rw [← hq]
  calc j * subLanes t cw + m < j * subLanes t cw + subLanes t cw := by omega
    _ = (j + 1) * subLanes t cw := by rw [Nat.add_mul, Nat.one_mul]
    _ ≤ subloads cw * subLanes t cw := Nat.mul_le_mul_right _ hj

/-- Step 4 on one lane: the compare-and-add is `N2C` on 0 .. 15 (R176, R108). -/
theorem ascii_lane (cw : CharWidth) (n : BitVec 4) :
    addLane cw (addLane cw (n.setWidth 32) (0x27 &&& (if 9 < n.setWidth 32 then onesLane cw else 0))) 0x30 =
      (n2c n).setWidth 32 := by
  revert n; cases cw <;> decide

set_option maxRecDepth 10000 in
theorem high_lane (b : Byte) : ((b.setWidth 32 >>> 4) &&& 0x0F : Lane) = (b.extractLsb' 4 4).setWidth 32 := by
  revert b; decide

set_option maxRecDepth 10000 in
theorem low_lane (b : Byte) : (b.setWidth 32 &&& 0x0F : Lane) = (b.extractLsb' 0 4).setWidth 32 := by
  revert b; decide

/-- The nibble of lane `k` (R174). -/
def nibbleLane (rd : Nat → Nat) (i0 k : Nat) : BitVec 4 :=
  if k % 2 = 0 then (BitVec.ofNat 8 (rd (i0 + k / 2))).extractLsb' 4 4
  else (BitVec.ofNat 8 (rd (i0 + k / 2))).extractLsb' 0 4

/-- The block step on the registers (R178). -/
theorem vencRegs_spec (t : Tier) (cw : CharWidth) (rd : Nat → Nat) (i0 : Nat) (v : VecRegs) :
    (vencRegs t cw rd i0 v).z = bank t cw fun k => (n2c (nibbleLane rd i0 k)).setWidth 32 := by
  have hz : (nibbles t cw (widen t cw (expand t (loadBytes t rd i0 v)))).z =
      bank t cw fun k => (nibbleLane rd i0 k).setWidth 32 := by
    simp only [nibbles, widen, expand, loadBytes]
    apply bank_congr
    intro k hk
    have hb : k / 2 < blockBytes t := by unfold blockBytes; revert hk; cases t <;> simp [blockChars] <;> omega
    rw [bankAt_bank _ _ _ hk, laneAt_lanes hk, laneAt_lanes hb]
    unfold nibbleLane
    split
    · exact high_lane _
    · exact low_lane _
  simp only [vencRegs, toAscii, overNine, hz]
  apply bank_congr
  intro k hk
  rw [bankAt_bank _ _ _ hk, bankAt_bank _ _ _ hk, bankAt_bank _ _ _ hk, ascii_lane]

end Sys2Proof.Machine
end

