-- ==== Sys2Proof/Laws/Dispatcher.lean ====
section
/-! SUPPORT. Laws of the block steps and of the two operations (44_dispatcher_commands.md): one pass of each
block loop, the loops, and `DEC` and `ENC` as functions of the operands and memory (R200, R204, R227, R228). -/

namespace Sys2Proof.Machine

theorem blockChars_eq (t : Tier) : blockChars t = 2 * blockBytes t := by cases t <;> rfl

theorem blockBytes_pos {t : Tier} (h : hasVector t = true) : 0 < blockBytes t := by
  cases t
  · simp [hasVector] at h
  · decide
  · decide

theorem esSrc_dec {i : Instr} (h : i.op = .dec) : esSrc i = i.cw.bytes := by simp [esSrc, h]

theorem esDst_dec {i : Instr} (h : i.op = .dec) : esDst i = 1 := by simp [esDst, h]

theorem esSrc_enc {i : Instr} (h : i.op = .enc) : esSrc i = 1 := by simp [esSrc, h]

theorem esDst_enc {i : Instr} (h : i.op = .enc) : esDst i = i.cw.bytes := by simp [esDst, h]

/-- One pass of the decode block loop when block `o / BLOCK_BYTES` of the command is next (R194, R154). -/
theorem decBlockUnit_eq {j : Job} {s0 s : State} {o : Nat} (hop : j.instr.op = .dec)
    (hd : j.viewsDisjoint = true) (h : Prog j s0 (decWant j s0.mem) o s) (hi : s.inOff = 2 * o)
    (ho : s.outOff = o) (hn : o ≤ j.cap) (hk : 2 * (o + blockBytes s.params.tier) ≤ j.len) :
    ((∀ k, 2 * o ≤ k → k < 2 * (o + blockBytes s.params.tier) → ValidAt j s0.mem k) →
      ∃ s', decBlockUnit j s = .go s' ∧
        Prog j s0 (decWant j s0.mem) (o + blockBytes s.params.tier) s' ∧
        s'.inOff = 2 * (o + blockBytes s.params.tier) ∧ s'.outOff = o + blockBytes s.params.tier) ∧
    (¬ (∀ k, 2 * o ≤ k → k < 2 * (o + blockBytes s.params.tier) → ValidAt j s0.mem k) →
      ∃ s', decBlockUnit j s = .stop (raiseInvalidChar j s') ∧ Prog j s0 (decWant j s0.mem) o s' ∧
        s'.outOff = o) := by
  have hbc := blockChars_eq s.params.tier
  have hrd : ∀ k, srcRead j s.mem k < 256 ^ j.instr.cw.bytes := by
    intro k; rw [← esSrc_dec hop]; exact srcRead_lt _ _ _
  obtain ⟨v1, v2⟩ := vdecRegs_spec s.params.tier j.instr.cw (srcRead j s.mem) s.inOff s.vec hrd
  have hrd0 : ∀ k, k < blockChars s.params.tier → srcRead j s.mem (2 * o + k) = srcRead j s0.mem (2 * o + k) := by
    intro k hk'; exact h.srcRead hd hn (by omega)
  have hiff : (vdecRegs s.params.tier j.instr.cw (srcRead j s.mem) s.inOff s.vec).2 = true ↔
      ∀ k, 2 * o ≤ k → k < 2 * (o + blockBytes s.params.tier) → ValidAt j s0.mem k := by
    rw [v1, hi]
    constructor
    · intro hv k h1 h2
      have := hv (k - 2 * o) (by omega)
      rw [hrd0 _ (by omega), show 2 * o + (k - 2 * o) = k by omega] at this
      exact this
    · intro hv k hk'
      rw [hrd0 k hk']
      exact hv _ (by omega) (by omega)
  constructor
  · intro hv
    have hr := hiff.mpr hv
    have hp := v2 hr
    refine ⟨_, by simp only [decBlockUnit, vdecBlock, hr, if_true, Flow.andThen]; rfl, ?_, ?_, ?_⟩
    · have hw := prog_writeAll (j := j) (s0 := s0) (want := decWant j s0.mem)
        ((vdecRegs s.params.tier j.instr.cw (srcRead j s.mem) s.inOff s.vec).1.p.map BitVec.toNat)
        (s := { s with vec := (vdecRegs s.params.tier j.instr.cw (srcRead j s.mem) s.inOff s.vec).1 }) (n := o) ?_
        (h.congr rfl ⟨rfl, rfl, rfl, rfl, rfl, rfl, rfl, rfl⟩ rfl rfl)
      · have hl : ((vdecRegs s.params.tier j.instr.cw (srcRead j s.mem) s.inOff s.vec).1.p.map
            BitVec.toNat).length = blockBytes s.params.tier := by rw [List.length_map, hp, length_lanes]
        rw [hl] at hw
        refine hw.congr ?_ (regsKept_advance .dec _) rfl rfl
        rw [ho]; rfl
      · intro k hk'
        simp only [hp, map_lanes, getElem_lanes, length_lanes] at hk' ⊢
        rw [hi, hrd0 _ (by omega), hrd0 _ (by omega)]
        simp only [decWant]
        rw [show 2 * (o + k) = 2 * o + 2 * k by omega, show 2 * o + 2 * k + 1 = 2 * o + (2 * k + 1) by omega]
    · simp [hi]; omega
    · simp [ho]
  · intro hv
    have hr : (vdecRegs s.params.tier j.instr.cw (srcRead j s.mem) s.inOff s.vec).2 = false := by
      rw [← Bool.not_eq_true, hiff]; exact hv
    refine ⟨_, by simp only [decBlockUnit, vdecBlock, hr, Bool.false_eq_true, if_false, Flow.andThen]; rfl,
      h.congr rfl ⟨rfl, rfl, rfl, rfl, rfl, rfl, rfl, rfl⟩ rfl rfl, ho⟩

/-- One pass of the encode block loop (R202, R178). -/
theorem encBlockUnit_eq {j : Job} {s0 s : State} {i0 : Nat}
    (hd : j.viewsDisjoint = true) (h : Prog j s0 (encWant j s0.mem) (2 * i0) s) (hi : s.inOff = i0)
    (ho : s.outOff = 2 * i0) (hn : 2 * i0 ≤ j.cap) (hk : i0 + blockBytes s.params.tier ≤ j.len) :
    ∃ s', encBlockUnit j s = .go s' ∧
      Prog j s0 (encWant j s0.mem) (2 * (i0 + blockBytes s.params.tier)) s' ∧
      s'.inOff = i0 + blockBytes s.params.tier ∧ s'.outOff = 2 * (i0 + blockBytes s.params.tier) := by
  have hbc := blockChars_eq s.params.tier
  have hv := vencRegs_spec s.params.tier j.instr.cw (srcRead j s.mem) s.inOff s.vec
  refine ⟨_, by simp only [encBlockUnit, vencBlock, Flow.andThen]; rfl, ?_, ?_, ?_⟩
  · have hw := prog_writeAll (j := j) (s0 := s0) (want := encWant j s0.mem)
      ((vencRegs s.params.tier j.instr.cw (srcRead j s.mem) s.inOff s.vec).z.flatten.map BitVec.toNat)
      (s := { s with vec := vencRegs s.params.tier j.instr.cw (srcRead j s.mem) s.inOff s.vec }) (n := 2 * i0) ?_
      (h.congr rfl ⟨rfl, rfl, rfl, rfl, rfl, rfl, rfl, rfl⟩ rfl rfl)
    · have hl : ((vencRegs s.params.tier j.instr.cw (srcRead j s.mem) s.inOff s.vec).z.flatten.map
          BitVec.toNat).length = 2 * blockBytes s.params.tier := by
        rw [List.length_map, hv, flatten_bank, length_lanes, hbc]
      rw [hl, ← Nat.mul_add] at hw
      refine hw.congr ?_ (regsKept_advance .enc _) rfl rfl
      rw [ho]; rfl
    · intro k hk'
      simp only [hv, flatten_bank, map_lanes, getElem_lanes, length_lanes] at hk' ⊢
      have hr : srcRead j s.mem (i0 + k / 2) = srcRead j s0.mem (i0 + k / 2) := h.srcRead hd hn (by omega)
      simp only [nibbleLane, encWant, hi, hr, charOf]
      rw [show (2 * i0 + k) / 2 = i0 + k / 2 by omega, show (2 * i0 + k) % 2 = k % 2 by omega]
      have hs : ∀ b : Byte, (b.setWidth 32).toNat = b.toNat := by
        intro b
        rw [BitVec.toNat_setWidth]
        exact Nat.mod_eq_of_lt (by have := b.isLt; omega)
      split <;> exact hs _
  · simp [hi]
  · simp [ho, hbc]; omega

/-- The decode block loop over `n` blocks that hold hex digits only (R194). -/
theorem decBlocks_ok {j : Job} {s0 : State} (hop : j.instr.op = .dec) (hd : j.viewsDisjoint = true) (n : Nat)
    {p m : Nat} {s : State} (h : Prog j s0 (decWant j s0.mem) (m * blockBytes s0.params.tier) s)
    (hi : s.inOff = 2 * (m * blockBytes s0.params.tier)) (ho : s.outOff = m * blockBytes s0.params.tier)
    (hn : (m + n) * blockBytes s0.params.tier ≤ j.cap)
    (hk : 2 * ((m + n) * blockBytes s0.params.tier) ≤ j.len)
    (hv : ∀ k, 2 * (m * blockBytes s0.params.tier) ≤ k → k < 2 * ((m + n) * blockBytes s0.params.tier) →
      ValidAt j s0.mem k) :
    ∃ s', repeatUnits (fun _ => decBlockUnit j) n p s = .go s' ∧
      Prog j s0 (decWant j s0.mem) ((m + n) * blockBytes s0.params.tier) s' ∧
      s'.inOff = 2 * ((m + n) * blockBytes s0.params.tier) ∧
      s'.outOff = (m + n) * blockBytes s0.params.tier := by
  induction n generalizing p m s with
  | zero => exact ⟨s, rfl, h, hi, ho⟩
  | succ n ih =>
    have ht : s.params.tier = s0.params.tier := by rw [h.kept.1]
    have hmono : (m + 1) * blockBytes s0.params.tier ≤ (m + (n + 1)) * blockBytes s0.params.tier :=
      Nat.mul_le_mul_right _ (by omega)
    have hsucc : (m + 1) * blockBytes s0.params.tier =
        m * blockBytes s0.params.tier + blockBytes s0.params.tier := by rw [Nat.add_mul, Nat.one_mul]
    obtain ⟨s1, e1, p1, i1, o1⟩ := (decBlockUnit_eq hop hd h hi ho (by omega) (by rw [ht]; omega)).1
      (fun k h1 h2 => hv k h1 (by rw [ht] at h2; omega))
    rw [ht, ← hsucc] at p1 i1 o1
    obtain ⟨s2, e2, p2, i2, o2⟩ := ih (p := p + 1) (m := m + 1) p1 i1 o1
      (by rw [show m + 1 + n = m + (n + 1) by omega]; exact hn)
      (by rw [show m + 1 + n = m + (n + 1) by omega]; exact hk)
      (fun k h1 h2 => hv k (by omega) (by rw [show m + 1 + n = m + (n + 1) by omega] at h2; exact h2))
    rw [show m + 1 + n = m + (n + 1) by omega] at p2 i2 o2
    exact ⟨s2, by simp only [repeatUnits, e1, Flow.andThen, e2], p2, i2, o2⟩

/-- The decode block loop when character `e` is the first invalid one: the blocks before its block are
stored (R194, R224). -/
theorem decBlocks_bad {j : Job} {s0 : State} (hop : j.instr.op = .dec) (hd : j.viewsDisjoint = true) (n : Nat)
    {p m e : Nat} {s : State} (h : Prog j s0 (decWant j s0.mem) (m * blockBytes s0.params.tier) s)
    (hi : s.inOff = 2 * (m * blockBytes s0.params.tier)) (ho : s.outOff = m * blockBytes s0.params.tier)
    (hn : (m + n) * blockBytes s0.params.tier ≤ j.cap)
    (hk : 2 * ((m + n) * blockBytes s0.params.tier) ≤ j.len)
    (h1 : 2 * (m * blockBytes s0.params.tier) ≤ e) (h2 : e < 2 * ((m + n) * blockBytes s0.params.tier))
    (he : ¬ ValidAt j s0.mem e) (hv : ∀ k < e, ValidAt j s0.mem k) :
    ∃ s', repeatUnits (fun _ => decBlockUnit j) n p s = .stop (raiseInvalidChar j s') ∧
      Prog j s0 (decWant j s0.mem) (e / blockChars s0.params.tier * blockBytes s0.params.tier) s' ∧
      s'.outOff = e / blockChars s0.params.tier * blockBytes s0.params.tier := by
  induction n generalizing p m s with
  | zero => rw [Nat.add_zero] at h2; omega
  | succ n ih =>
    have ht : s.params.tier = s0.params.tier := by rw [h.kept.1]
    have hmono : (m + 1) * blockBytes s0.params.tier ≤ (m + (n + 1)) * blockBytes s0.params.tier :=
      Nat.mul_le_mul_right _ (by omega)
    have hsucc : (m + 1) * blockBytes s0.params.tier =
        m * blockBytes s0.params.tier + blockBytes s0.params.tier := by rw [Nat.add_mul, Nat.one_mul]
    by_cases hc : e < 2 * ((m + 1) * blockBytes s0.params.tier)
    · obtain ⟨s1, e1, p1, o1⟩ := (decBlockUnit_eq hop hd h hi ho (by omega) (by rw [ht]; omega)).2
        (fun hall => he (hall e h1 (by rw [ht]; omega)))
      have hq : e / blockChars s0.params.tier = m := by
        rw [blockChars_eq]
        apply Nat.div_eq_of_lt_le
        · rw [← Nat.mul_assoc, Nat.mul_comm m 2, Nat.mul_assoc]; exact h1
        · rw [← Nat.mul_assoc, Nat.mul_comm (m + 1) 2, Nat.mul_assoc]; exact hc
      rw [hq]
      exact ⟨s1, by simp only [repeatUnits, e1, Flow.andThen], p1, o1⟩
    · obtain ⟨s1, e1, p1, i1, o1⟩ := (decBlockUnit_eq hop hd h hi ho (by omega) (by rw [ht]; omega)).1
        (fun k _ h4 => hv k (by rw [ht] at h4; omega))
      rw [ht, ← hsucc] at p1 i1 o1
      have hm : m + 1 + n = m + (n + 1) := by omega
      obtain ⟨s2, e2, p2, o2⟩ := ih (p := p + 1) (m := m + 1) p1 i1 o1
        (by rw [hm]; exact hn) (by rw [hm]; exact hk) (by omega) (by rw [hm]; exact h2)
      exact ⟨s2, by simp only [repeatUnits, e1, Flow.andThen, e2], p2, o2⟩

/-- The encode block loop (R202). -/
theorem encBlocks {j : Job} {s0 : State} (hd : j.viewsDisjoint = true) (n : Nat) {p m : Nat} {s : State}
    (h : Prog j s0 (encWant j s0.mem) (2 * (m * blockBytes s0.params.tier)) s)
    (hi : s.inOff = m * blockBytes s0.params.tier) (ho : s.outOff = 2 * (m * blockBytes s0.params.tier))
    (hn : 2 * ((m + n) * blockBytes s0.params.tier) ≤ j.cap)
    (hk : (m + n) * blockBytes s0.params.tier ≤ j.len) :
    ∃ s', repeatUnits (fun _ => encBlockUnit j) n p s = .go s' ∧
      Prog j s0 (encWant j s0.mem) (2 * ((m + n) * blockBytes s0.params.tier)) s' ∧
      s'.inOff = (m + n) * blockBytes s0.params.tier ∧
      s'.outOff = 2 * ((m + n) * blockBytes s0.params.tier) := by
  induction n generalizing p m s with
  | zero => exact ⟨s, rfl, h, hi, ho⟩
  | succ n ih =>
    have ht : s.params.tier = s0.params.tier := by rw [h.kept.1]
    have hmono : (m + 1) * blockBytes s0.params.tier ≤ (m + (n + 1)) * blockBytes s0.params.tier :=
      Nat.mul_le_mul_right _ (by omega)
    have hsucc : (m + 1) * blockBytes s0.params.tier =
        m * blockBytes s0.params.tier + blockBytes s0.params.tier := by rw [Nat.add_mul, Nat.one_mul]
    obtain ⟨s1, e1, p1, i1, o1⟩ := encBlockUnit_eq hd h hi ho (by omega) (by rw [ht]; omega)
    rw [ht, ← hsucc] at p1 i1 o1
    have hm : m + 1 + n = m + (n + 1) := by omega
    obtain ⟨s2, e2, p2, i2, o2⟩ := ih (p := p + 1) (m := m + 1) p1 i1 o1
      (by rw [hm]; exact hn) (by rw [hm]; exact hk)
    rw [hm] at p2 i2 o2
    exact ⟨s2, by simp only [repeatUnits, e1, Flow.andThen, e2], p2, i2, o2⟩

/-- The arithmetic of the split (R195): `full` blocks and a tail of `n mod BLOCK_CHARS`. -/
theorem dec_split (t : Tier) (n : Nat) :
    2 * (n / blockChars t * blockBytes t) ≤ n ∧
      (hasVector t = true → n - 2 * (n / blockChars t * blockBytes t) < blockChars t) := by
  rw [blockChars_eq]
  have h1 := Nat.div_mul_le_self n (2 * blockBytes t)
  rw [← Nat.mul_assoc, Nat.mul_comm _ 2, Nat.mul_assoc] at h1
  refine ⟨h1, fun hv => ?_⟩
  have h2 := Nat.div_add_mod n (2 * blockBytes t)
  have h3 := Nat.mod_lt n (show 0 < 2 * blockBytes t by have := blockBytes_pos hv; omega)
  rw [Nat.mul_comm (2 * blockBytes t), ← Nat.mul_assoc, Nat.mul_comm _ 2, Nat.mul_assoc] at h2
  omega

/-- `DEC`, CapacityError (R193, R192): the hidden registers apart, only `STATUS` changes. -/
theorem dec_capacity {j : Job} {s : State} (hc : j.cap * 2 < j.len) : dec j s = raiseCapacity s := by
  have : capacityShort .dec j.len j.cap = true := by simp [capacityShort, hc]
  unfold dec sdec
  simp only [this, if_true, Flow.close]
  split <;> rfl

/-- `DEC` on a valid string (R200 (c), R192). -/
theorem dec_ok {j : Job} {s : State} (hop : j.instr.op = .dec) (hd : j.viewsDisjoint = true)
    (hi : s.inOff = 0) (ho : s.outOff = 0) (hc : ¬ j.cap * 2 < j.len)
    (hv : ∀ k < 2 * (j.len / 2), ValidAt j s.mem k) :
    ∃ s', dec j s = finish s' ∧ Prog j s (decWant j s.mem) (j.len / 2) s' := by
  have hcs : capacityShort .dec j.len j.cap = false := by simp [capacityShort]; omega
  have h0 := prog_zero j s (decWant j s.mem)
  unfold dec
  split
  · rename_i ht
    simp only [hcs, Bool.false_eq_true, if_false]
    obtain ⟨a1, a2⟩ := dec_split s.params.tier j.len
    have a2 := a2 ht
    have hb := blockBytes_pos ht
    obtain ⟨s1, e1, p1, i1, o1⟩ := decBlocks_ok hop hd (j.len / blockChars s.params.tier) (p := 0) (m := 0)
      (by simpa using h0) (by simpa using hi) (by simpa using ho) (by rw [Nat.zero_add]; omega)
      (by rw [Nat.zero_add]; omega) (fun k _ h2 => hv k (by rw [Nat.zero_add] at h2; omega))
    rw [Nat.zero_add] at p1 i1 o1
    simp only [e1, Flow.andThen, decTail]
    split
    · rename_i htail
      have hcs' : capacityShort .dec (j.len - s1.inOff) (j.cap - s1.outOff) = false := by
        simp [capacityShort]; omega
      rw [i1, o1] at hcs'
      simp only [sdec, hcs', Bool.false_eq_true, if_false, i1, o1]
      obtain ⟨s2, e2, p2, -, -⟩ := sdecLoop_ok hd
        ((j.len - 2 * (j.len / blockChars s.params.tier * blockBytes s.params.tier)) / 2) (p := 0)
        (d0 := j.len / blockChars s.params.tier * blockBytes s.params.tier) (s := s1)
        (by simpa using p1) (by omega) (by omega) (fun k _ h2 => hv k (by omega))
      rw [e2]
      refine ⟨s2, rfl, ?_⟩
      rw [show j.len / 2 = j.len / blockChars s.params.tier * blockBytes s.params.tier + 0 +
        (j.len - 2 * (j.len / blockChars s.params.tier * blockBytes s.params.tier)) / 2 by omega]
      exact p2
    · refine ⟨s1, rfl, ?_⟩
      rw [show j.len / 2 = j.len / blockChars s.params.tier * blockBytes s.params.tier by omega]
      exact p1
  · simp only [sdec, hcs, Bool.false_eq_true, if_false]
    obtain ⟨s2, e2, p2, -, -⟩ := sdecLoop_ok (d0 := 0) hd (j.len / 2) (p := 0) (s := s)
      (by simpa using h0) (by omega) (by omega) (fun k _ h2 => hv k (by omega))
    rw [Nat.mul_zero] at e2
    rw [e2]
    exact ⟨s2, rfl, by simpa using p2⟩

/-- `wRef` and `wGuar` of the vector tiers in the terms of the block constants (R227, R228). -/
theorem wRef_vector {t : Tier} (ht : hasVector t = true) (n e : Nat) :
    wRef t n e = if e < n / blockChars t * blockChars t then e / blockChars t * blockBytes t else e / 2 := by
  cases t
  · simp [hasVector] at ht
  · rfl
  · rfl

theorem wGuar_vector {t : Tier} (ht : hasVector t = true) (e : Nat) :
    wGuar t e = e / blockChars t * blockBytes t := by
  cases t
  · simp [hasVector] at ht
  · rfl
  · rfl

/-- `DEC` on a string whose first invalid validated character is `e` (R227): the reference datapath has
written `W_ref` bytes, and `OUT_OFF` is `W_guar` (R228). -/
theorem dec_invalid {j : Job} {s : State} {e : Nat} (hop : j.instr.op = .dec) (hd : j.viewsDisjoint = true)
    (hi : s.inOff = 0) (ho : s.outOff = 0) (hc : ¬ j.cap * 2 < j.len) (hlt : e < 2 * (j.len / 2))
    (he : ¬ ValidAt j s.mem e) (hv : ∀ k < e, ValidAt j s.mem k) :
    ∃ s', dec j s = raiseInvalidChar j s' ∧
      Prog j s (decWant j s.mem) (wRef s.params.tier j.len e) s' ∧ s'.outOff = wGuar s.params.tier e := by
  have hcs : capacityShort .dec j.len j.cap = false := by simp [capacityShort]; omega
  have h0 := prog_zero j s (decWant j s.mem)
  unfold dec
  split
  · rename_i ht
    simp only [hcs, Bool.false_eq_true, if_false]
    rw [wRef_vector ht, wGuar_vector ht]
    obtain ⟨a1, a2⟩ := dec_split s.params.tier j.len
    have a2 := a2 ht
    have hb := blockBytes_pos ht
    have hfull : j.len / blockChars s.params.tier * blockChars s.params.tier =
        2 * (j.len / blockChars s.params.tier * blockBytes s.params.tier) := by
      conv_lhs => rw [blockChars_eq]
      rw [blockChars_eq, ← Nat.mul_assoc, Nat.mul_comm _ 2, Nat.mul_assoc]
    rw [hfull]
    by_cases hb1 : e < 2 * (j.len / blockChars s.params.tier * blockBytes s.params.tier)
    · obtain ⟨s1, e1, p1, o1⟩ := decBlocks_bad hop hd (j.len / blockChars s.params.tier) (p := 0) (m := 0)
        (by simpa using h0) (by simpa using hi) (by simpa using ho) (by rw [Nat.zero_add]; omega)
        (by rw [Nat.zero_add]; omega) (by omega) (by rw [Nat.zero_add]; exact hb1) he hv
      simp only [e1, Flow.andThen, hb1, if_true]
      exact ⟨s1, rfl, p1, o1⟩
    · obtain ⟨s1, e1, p1, i1, o1⟩ := decBlocks_ok hop hd (j.len / blockChars s.params.tier) (p := 0) (m := 0)
        (by simpa using h0) (by simpa using hi) (by simpa using ho) (by rw [Nat.zero_add]; omega)
        (by rw [Nat.zero_add]; omega) (fun k _ h2 => hv k (by rw [Nat.zero_add] at h2; omega))
      rw [Nat.zero_add] at p1 i1 o1
      have htail : 2 ≤ j.len - s1.inOff := by omega
      rw [i1] at htail
      have hcs' : capacityShort .dec (j.len - s1.inOff) (j.cap - s1.outOff) = false := by
        simp [capacityShort]; omega
      rw [i1, o1] at hcs'
      simp only [e1, Flow.andThen, decTail, htail, if_true, sdec, hcs', Bool.false_eq_true, if_false, i1, o1,
        hb1]
      obtain ⟨s2, e2, p2, -, o2⟩ := sdecLoop_bad hd
        ((j.len - 2 * (j.len / blockChars s.params.tier * blockBytes s.params.tier)) / 2) (p := 0)
        (d0 := j.len / blockChars s.params.tier * blockBytes s.params.tier) (s := s1) (e := e)
        (by simpa using p1) (by omega) (by omega) (by omega) (by omega) he (fun k _ h2 => hv k h2)
      rw [e2]
      refine ⟨s2, rfl, p2, ?_⟩
      rw [o2, o1]
      congr 1
      symm
      apply Nat.div_eq_of_lt_le
      · rw [hfull]; omega
      · rw [Nat.add_mul, Nat.one_mul, hfull]; omega
  · rename_i ht
    have ht' : s.params.tier = .generic := by
      revert ht; cases s.params.tier <;> simp [hasVector]
    simp only [sdec, hcs, Bool.false_eq_true, if_false]
    obtain ⟨s2, e2, p2, -, o2⟩ := sdecLoop_bad (d0 := 0) hd (j.len / 2) (p := 0) (s := s) (e := e)
      (by simpa using h0) (by omega) (by omega) (by omega) (by omega) he (fun k _ h2 => hv k h2)
    rw [Nat.mul_zero] at e2
    rw [e2, ht']
    exact ⟨s2, rfl, p2, o2.trans ho⟩

/-- `ENC`, CapacityError (R201, R192). -/
theorem enc_capacity {j : Job} {s : State} (hc : j.cap < j.len * 2) : enc j s = raiseCapacity s := by
  have : capacityShort .enc j.len j.cap = true := by simp [capacityShort, hc]
  unfold enc senc
  simp only [this, if_true, Flow.close]
  split <;> rfl

/-- `ENC` otherwise (R204, R192). -/
theorem enc_ok {j : Job} {s : State} (hd : j.viewsDisjoint = true) (hi : s.inOff = 0) (ho : s.outOff = 0)
    (hc : ¬ j.cap < j.len * 2) :
    ∃ s', enc j s = finish s' ∧ Prog j s (encWant j s.mem) (2 * j.len) s' := by
  have hcs : capacityShort .enc j.len j.cap = false := by simp [capacityShort]; omega
  have h0 := prog_zero j s (encWant j s.mem)
  unfold enc
  split
  · simp only [hcs, Bool.false_eq_true, if_false]
    have a1 : j.len / blockBytes s.params.tier * blockBytes s.params.tier ≤ j.len := Nat.div_mul_le_self _ _
    obtain ⟨s1, e1, p1, i1, o1⟩ := encBlocks hd (j.len / blockBytes s.params.tier) (p := 0) (m := 0)
      (by simpa using h0) (by simpa using hi) (by simpa using ho) (by rw [Nat.zero_add]; omega)
      (by rw [Nat.zero_add]; omega)
    rw [Nat.zero_add] at p1 i1 o1
    have hcs' : capacityShort .enc (j.len - s1.inOff) (j.cap - s1.outOff) = false := by
      simp [capacityShort]; omega
    rw [i1, o1] at hcs'
    simp only [e1, Flow.andThen, encTail, senc, hcs', Bool.false_eq_true, if_false, i1, o1]
    obtain ⟨s2, e2, p2, -, -⟩ := sencLoop hd
      (j.len - j.len / blockBytes s.params.tier * blockBytes s.params.tier) (p := 0)
      (i0 := j.len / blockBytes s.params.tier * blockBytes s.params.tier) (s := s1)
      (by simpa using p1) (by omega) (by omega)
    rw [e2]
    refine ⟨s2, rfl, ?_⟩
    rw [show j.len / blockBytes s.params.tier * blockBytes s.params.tier + 0 +
        (j.len - j.len / blockBytes s.params.tier * blockBytes s.params.tier) = j.len by omega] at p2
    exact p2
  · simp only [senc, hcs, Bool.false_eq_true, if_false]
    obtain ⟨s2, e2, p2, -, -⟩ := sencLoop (i0 := 0) hd j.len (p := 0) (s := s)
      (by simpa using h0) (by omega) (by omega)
    rw [Nat.mul_zero] at e2
    rw [e2]
    exact ⟨s2, rfl, by simpa using p2⟩

end Sys2Proof.Machine
end

