-- ==== Sys2Proof/Laws/Commands.lean ====
section
/-! SUPPORT. Laws of the six commands: what `exec` can answer, once for the decode commands and once for the
encode commands. Every claim about a command cites these and unfolds no meaning. -/

namespace Sys2Proof.Machine

theorem exec_dec {i : Instr} (h : i.op = .dec) (s : State) : exec i s = issue i dec s := by
  cases i <;> first | rfl | simp [Instr.op] at h

theorem exec_enc {i : Instr} (h : i.op = .enc) (s : State) : exec i s = issue i enc s := by
  cases i <;> first | rfl | simp [Instr.op] at h

theorem issue_busy {i : Instr} {body : Job → State → State} {s : State} (h : s.isBusy = true) :
    issue i body s = .next s := by
  simp [issue, h]

theorem issue_ready {i : Instr} {body : Job → State → State} {s : State} (h : Ready i s) :
    issue i body s = .next (body (sampleJob i s) (startCommand (sampleJob i s) s)) := by
  simp [issue, h.1, h.2]

theorem issue_refused {i : Instr} {body : Job → State → State} {s : State} {r : Refusal}
    (h : s.isBusy = false) (hr : viewRefusal s.params (sampleJob i s) = some r) :
    issue i body s = .refused r := by
  simp [issue, h, hr]

/-- A command issued while the unit is not `BUSY` answers a next state only when it is ready. -/
theorem issue_next {i : Instr} {body : Job → State → State} {s t : State} (h : s.isBusy = false)
    (e : issue i body s = .next t) :
    Ready i s ∧ t = body (sampleJob i s) (startCommand (sampleJob i s) s) := by
  unfold issue at e
  simp only [h, Bool.false_eq_true, if_false] at e
  split at e
  · cases e
  · rename_i hr
    cases e
    exact ⟨⟨h, hr⟩, rfl⟩

theorem op_cases (i : Instr) : i.op = .dec ∨ i.op = .enc := by cases i <;> simp [Instr.op]

/-- A command issued while the unit is not `BUSY` is run exactly when it is ready. -/
theorem exec_next_ready {i : Instr} {s t : State} (h : s.isBusy = false) (e : exec i s = .next t) :
    Ready i s := by
  rcases op_cases i with hop | hop
  · rw [exec_dec hop] at e; exact (issue_next h e).1
  · rw [exec_enc hop] at e; exact (issue_next h e).1

theorem exec_busy (i : Instr) {s : State} (h : s.isBusy = true) : exec i s = .next s := by
  rcases op_cases i with hop | hop
  · rw [exec_dec hop, issue_busy h]
  · rw [exec_enc hop, issue_busy h]

theorem exec_refused (i : Instr) {s : State} {r : Refusal} (h : s.isBusy = false)
    (hr : viewRefusal s.params (sampleJob i s) = some r) : exec i s = .refused r := by
  rcases op_cases i with hop | hop
  · rw [exec_dec hop, issue_refused h hr]
  · rw [exec_enc hop, issue_refused h hr]

/-- The first index below `n` at which a decidable property fails, if it fails anywhere. -/
theorem exists_first {P : Nat → Prop} [DecidablePred P] (n : Nat) (h : ¬ ∀ k < n, P k) :
    ∃ e < n, ¬ P e ∧ ∀ k < e, P k := by
  have hx : ∃ k, k < n ∧ ¬ P k := by
    by_contra hc
    exact h fun k hk => by by_contra hp; exact hc ⟨k, hk, hp⟩
  refine ⟨Nat.find hx, (Nat.find_spec hx).1, (Nat.find_spec hx).2, fun k hk => ?_⟩
  by_contra hp
  exact Nat.find_min hx hk ⟨Nat.lt_trans hk (Nat.find_spec hx).1, hp⟩

theorem nibbleOf_ne {i : Instr} {s : State} {k : Nat} :
    nibbleOf i s k ≠ INVALID ↔ ValidAt (sampleJob i s) (startCommand (sampleJob i s) s).mem k := Iff.rfl

/-- A ready decode command, CapacityError. -/
theorem exec_dec_short {i : Instr} {s : State} (hop : i.op = .dec) (hr : Ready i s)
    (hc : s.dstCap * 2 < s.srcLen) :
    exec i s = .next (endCommand .errCapacity (startCommand (sampleJob i s) s)) := by
  rw [exec_dec hop, issue_ready hr, dec_capacity (by exact hc)]; rfl

/-- A ready decode command on valid text. -/
theorem exec_dec_ok {i : Instr} {s : State} (hop : i.op = .dec) (hr : Ready i s)
    (hc : ¬ s.dstCap * 2 < s.srcLen) (hv : AllValid i s) :
    ∃ s', exec i s = .next (endCommand .ok s') ∧
      Prog (sampleJob i s) (startCommand (sampleJob i s) s) (decWant (sampleJob i s) s.mem) (s.srcLen / 2) s' := by
  obtain ⟨s', e, p⟩ := dec_ok (j := sampleJob i s) (s := startCommand (sampleJob i s) s) hop
    (viewRefusal_none hr.2).2.2 rfl rfl hc hv
  exact ⟨s', by rw [exec_dec hop, issue_ready hr, e]; rfl, p⟩

/-- A ready decode command on text whose first invalid validated character is `e`. -/
theorem exec_dec_bad {i : Instr} {s : State} {e : Nat} (hop : i.op = .dec) (hr : Ready i s)
    (hc : ¬ s.dstCap * 2 < s.srcLen) (hv : FirstInvalid i s e) :
    ∃ s', exec i s = .next (raiseInvalidChar (sampleJob i s) s') ∧
      Prog (sampleJob i s) (startCommand (sampleJob i s) s) (decWant (sampleJob i s) s.mem)
        (wRef s.params.tier s.srcLen e) s' ∧ s'.outOff = wGuar s.params.tier e := by
  obtain ⟨s', e', p, o⟩ := dec_invalid (j := sampleJob i s) (s := startCommand (sampleJob i s) s) hop
    (viewRefusal_none hr.2).2.2 rfl rfl hc hv.1 (fun h => h hv.2.1) hv.2.2
  exact ⟨s', by rw [exec_dec hop, issue_ready hr, e'], p, o⟩

/-- A ready encode command, CapacityError. -/
theorem exec_enc_short {i : Instr} {s : State} (hop : i.op = .enc) (hr : Ready i s)
    (hc : s.dstCap < s.srcLen * 2) :
    exec i s = .next (endCommand .errCapacity (startCommand (sampleJob i s) s)) := by
  rw [exec_enc hop, issue_ready hr, enc_capacity (by exact hc)]; rfl

/-- A ready encode command otherwise. -/
theorem exec_enc_ok {i : Instr} {s : State} (hop : i.op = .enc) (hr : Ready i s)
    (hc : ¬ s.dstCap < s.srcLen * 2) :
    ∃ s', exec i s = .next (endCommand .ok s') ∧
      Prog (sampleJob i s) (startCommand (sampleJob i s) s) (encWant (sampleJob i s) s.mem) (2 * s.srcLen) s' := by
  obtain ⟨s', e, p⟩ := enc_ok (j := sampleJob i s) (s := startCommand (sampleJob i s) s)
    (viewRefusal_none hr.2).2.2 rfl rfl hc
  exact ⟨s', by rw [exec_enc hop, issue_ready hr, e]; rfl, p⟩

/-- The five things a ready command can do. -/
inductive Ending (i : Instr) (s : State) : State → Prop where
  | decShort : i.op = .dec → s.dstCap * 2 < s.srcLen →
      Ending i s (endCommand .errCapacity (startCommand (sampleJob i s) s))
  | encShort : i.op = .enc → s.dstCap < s.srcLen * 2 →
      Ending i s (endCommand .errCapacity (startCommand (sampleJob i s) s))
  | decOk (s' : State) : i.op = .dec → s.srcLen ≤ s.dstCap * 2 → AllValid i s →
      Prog (sampleJob i s) (startCommand (sampleJob i s) s) (decWant (sampleJob i s) s.mem) (s.srcLen / 2) s' →
      Ending i s (endCommand .ok s')
  | encOk (s' : State) : i.op = .enc → s.srcLen * 2 ≤ s.dstCap →
      Prog (sampleJob i s) (startCommand (sampleJob i s) s) (encWant (sampleJob i s) s.mem) (2 * s.srcLen) s' →
      Ending i s (endCommand .ok s')
  | decBad (e : Nat) (s' : State) : i.op = .dec → s.srcLen ≤ s.dstCap * 2 → FirstInvalid i s e →
      Prog (sampleJob i s) (startCommand (sampleJob i s) s) (decWant (sampleJob i s) s.mem)
        (wRef s.params.tier s.srcLen e) s' → s'.outOff = wGuar s.params.tier e →
      Ending i s (raiseInvalidChar (sampleJob i s) s')

/-- A ready command has an ending. -/
theorem exec_ready {i : Instr} {s : State} (hr : Ready i s) : ∃ t, exec i s = .next t ∧ Ending i s t := by
  rcases op_cases i with hop | hop
  · by_cases hc : s.dstCap * 2 < s.srcLen
    · exact ⟨_, exec_dec_short hop hr hc, .decShort hop hc⟩
    · by_cases hv : AllValid i s
      · obtain ⟨s', e, p⟩ := exec_dec_ok hop hr hc hv
        exact ⟨_, e, .decOk s' hop (by omega) hv p⟩
      · obtain ⟨e, h1, h2, h3⟩ := exists_first _ hv
        have hf : FirstInvalid i s e := ⟨h1, by simpa using h2, h3⟩
        obtain ⟨s', e', p, o⟩ := exec_dec_bad hop hr hc hf
        exact ⟨_, e', .decBad e s' hop (by omega) hf p o⟩
  · by_cases hc : s.dstCap < s.srcLen * 2
    · exact ⟨_, exec_enc_short hop hr hc, .encShort hop hc⟩
    · obtain ⟨s', e, p⟩ := exec_enc_ok hop hr hc
      exact ⟨_, e, .encOk s' hop (by omega) p⟩

/-- What `exec` answered, while the unit was not `BUSY`, is an ending of the command. -/
theorem exec_ending {i : Instr} {s t : State} (h : s.isBusy = false) (e : exec i s = .next t) :
    Ready i s ∧ Ending i s t := by
  have hr := exec_next_ready h e
  obtain ⟨u, e', hu⟩ := exec_ready hr
  rw [e] at e'
  cases e'
  exact ⟨hr, hu⟩

/-- `W_ref` bytes lie inside the bytes a successful command writes. -/
theorem wRef_le (t : Tier) (n e : Nat) (h : e < 2 * (n / 2)) : wRef t n e ≤ n / 2 := by
  cases t <;> simp only [wRef] <;> (try split) <;> omega

end Sys2Proof.Machine
end

