-- ==== Sys2Proof/Laws/Unit.lean ====
section
/-! SUPPORT. Laws of a running command taken step by step (70_reset_and_hazards.md R263): what one step can
be, what the operations keep of a state whatever its `STATUS`, and the loops as sequences of steps. -/

namespace Sys2Proof.Machine

theorem unitTurns_add (a b : Nat) (s : State) : unitTurns (a + b) s = unitTurns b (unitTurns a s) := by
  induction a generalizing s with
  | zero => simp [unitTurns]
  | succ a ih => rw [Nat.succ_add]; exact ih (unitTurn s)

theorem unitTurn_busy {s : State} {j : Job} (h : s.status = .busy j) : unitTurn s = tick j s := by
  simp [unitTurn, h]

theorem unitTurn_idle {s : State} (h : s.isBusy = false) : unitTurn s = s := by
  unfold unitTurn
  cases hs : s.status <;> simp
  simp [State.isBusy, hs, Status.isBusy] at h

/-- `k` steps lead from `s` to `t`, and the unit is `BUSY` before each of them. -/
def Reaches (k : Nat) (s t : State) : Prop := unitTurns k s = t ∧ ∀ m < k, (unitTurns m s).isBusy = true

theorem Reaches.refl (s : State) : Reaches 0 s s := ⟨rfl, fun m hm => absurd hm (Nat.not_lt_zero m)⟩

theorem Reaches.trans {a b : Nat} {s t u : State} (h : Reaches a s t) (h' : Reaches b t u) :
    Reaches (a + b) s u := by
  refine ⟨by rw [unitTurns_add, h.1, h'.1], fun m hm => ?_⟩
  by_cases hma : m < a
  · exact h.2 m hma
  · have e : m = a + (m - a) := by omega
    rw [e, unitTurns_add, h.1]
    exact h'.2 _ (by omega)

theorem Reaches.step {s : State} {j : Job} (h : s.status = .busy j) : Reaches 1 s (tick j s) := by
  refine ⟨by simp [unitTurns, unitTurn_busy h], fun m hm => ?_⟩
  have : m = 0 := by omega
  subst this
  simp [unitTurns, State.isBusy, h, Status.isBusy]

/-- The state of a flow that goes on, with another `STATUS`. -/
def Flow.withStatus (x : Flow) (st : Status) : Flow :=
  match x with
  | .go s => .go { s with status := st }
  | .stop s => .stop s

theorem raiseInvalidChar_withStatus (j : Job) (ph : Phase) (st : Status) (s : State) :
    raiseInvalidChar { j with phase := ph } { s with status := st } = raiseInvalidChar j s := by
  unfold raiseInvalidChar
  cases h : s.params.failOutput <;> simp only <;> rfl

theorem dstWriteAll_phase (j : Job) (ph : Phase) (m : Memory) (k : Nat) (vs : List Nat) :
    dstWriteAll { j with phase := ph } m k vs = dstWriteAll j m k vs := by
  induction vs generalizing m k with
  | nil => rfl
  | cons v vs ih => exact ih _ _

theorem vdecBlock_withStatus (j : Job) (ph : Phase) (st : Status) (i0 o0 : Nat) (s : State) :
    vdecBlock { j with phase := ph } i0 o0 { s with status := st } = (vdecBlock j i0 o0 s).withStatus st := by
  simp only [vdecBlock, dstWriteAll_phase]
  have e : srcRead { j with phase := ph } s.mem = srcRead j s.mem := rfl
  rw [e]
  split
  · rfl
  · simp only [Flow.withStatus]
    exact congrArg Flow.stop <| raiseInvalidChar_withStatus j ph st { s with
      vec := (vdecRegs s.params.tier j.instr.cw (srcRead j s.mem) i0 s.vec).1 }

theorem blockUnit_withStatus (j : Job) (ph : Phase) (st : Status) (s : State) :
    blockUnit { j with phase := ph } { s with status := st } = (blockUnit j s).withStatus st := by
  unfold blockUnit
  simp only
  cases j.instr.op with
  | dec =>
    simp only [decBlockUnit, vdecBlock_withStatus]
    cases vdecBlock j s.inOff s.outOff s <;> rfl
  | enc =>
    simp only [encBlockUnit, vencBlock, dstWriteAll_phase]
    rfl

theorem scalarUnit_withStatus (j : Job) (ph : Phase) (st : Status) (p : Nat) (s : State) :
    scalarUnit { j with phase := ph } p { s with status := st } = (scalarUnit j p s).withStatus st := by
  unfold scalarUnit
  simp only
  cases j.instr.op with
  | dec =>
    simp only [sdecPair]
    have e : srcRead { j with phase := ph } s.mem = srcRead j s.mem := rfl
    rw [e]
    split
    · simp only [Flow.withStatus]
      exact congrArg Flow.stop (raiseInvalidChar_withStatus j ph st s)
    · rfl
  | enc => rfl

/-- The block loop as steps. -/
theorem blocks_reach (j : Job) (b p u q : Nat) (s : State) :
    match repeatUnits (fun _ => blockUnit j) b q s with
    | .go s' => Reaches b { s with status := .busy { j with phase := .work b p u } }
        { s' with status := .busy { j with phase := .work 0 p u } }
    | .stop s' => ∃ k ≤ b, Reaches k { s with status := .busy { j with phase := .work b p u } } s' := by
  induction b generalizing q s with
  | zero => exact Reaches.refl _
  | succ b ih =>
    have h1 : Reaches 1 { s with status := .busy { j with phase := .work (b + 1) p u } }
        (((blockUnit j s).withStatus (.busy { j with phase := .work (b + 1) p u })).continueIn
          { j with phase := .work (b + 1) p u } (.work b p u)) := by
      have := Reaches.step (s := { s with status := .busy { j with phase := .work (b + 1) p u } })
        (j := { j with phase := .work (b + 1) p u }) rfl
      simp only [tick, blockUnit_withStatus] at this
      exact this
    simp only [repeatUnits]
    cases hx : blockUnit j s with
    | stop s' =>
      rw [hx] at h1
      exact ⟨1, by omega, h1⟩
    | go s1 =>
      rw [hx] at h1
      have h2 := ih (q + 1) s1
      simp only [Flow.andThen]
      cases hy : repeatUnits (fun _ => blockUnit j) b (q + 1) s1 with
      | go s' =>
        rw [hy] at h2
        have := h1.trans h2
        rw [Nat.add_comm 1 b] at this
        exact this
      | stop s' =>
        rw [hy] at h2
        obtain ⟨k, hk, h3⟩ := h2
        exact ⟨1 + k, by omega, h1.trans h3⟩

/-- The scalar loop as steps. -/
theorem scalars_reach (j : Job) (u p : Nat) (s : State) :
    match repeatUnits (scalarUnit j) u p s with
    | .go s' => Reaches u { s with status := .busy { j with phase := .work 0 p u } }
        { s' with status := .busy { j with phase := .work 0 (p + u) 0 } }
    | .stop s' => ∃ k ≤ u, Reaches k { s with status := .busy { j with phase := .work 0 p u } } s' := by
  induction u generalizing p s with
  | zero => exact Reaches.refl _
  | succ u ih =>
    have h1 : Reaches 1 { s with status := .busy { j with phase := .work 0 p (u + 1) } }
        (((scalarUnit j p s).withStatus (.busy { j with phase := .work 0 p (u + 1) })).continueIn
          { j with phase := .work 0 p (u + 1) } (.work 0 (p + 1) u)) := by
      have := Reaches.step (s := { s with status := .busy { j with phase := .work 0 p (u + 1) } })
        (j := { j with phase := .work 0 p (u + 1) }) rfl
      simp only [tick, scalarUnit_withStatus] at this
      exact this
    simp only [repeatUnits]
    cases hx : scalarUnit j p s with
    | stop s' =>
      rw [hx] at h1
      exact ⟨1, by omega, h1⟩
    | go s1 =>
      rw [hx] at h1
      have h2 := ih (p + 1) s1
      simp only [Flow.andThen]
      cases hy : repeatUnits (scalarUnit j) u (p + 1) s1 with
      | go s' =>
        rw [hy] at h2
        have := h1.trans h2
        rw [Nat.add_comm 1 u, show p + 1 + u = p + (u + 1) by omega] at this
        exact this
      | stop s' =>
        rw [hy] at h2
        obtain ⟨k, hk, h3⟩ := h2
        exact ⟨1 + k, by omega, h1.trans h3⟩

/-- The destination elements of one block (R30). -/
def blockOutput (op : Op) (t : Tier) : Nat :=
  match op with
  | .dec => blockBytes t
  | .enc => blockChars t

/-- The destination elements of one scalar unit (R122, R128). -/
def unitOutput (op : Op) : Nat :=
  match op with
  | .dec => 1
  | .enc => 2

theorem length_flatten_bank (t : Tier) (cw : CharWidth) (f : Nat → Lane) :
    ((bank t cw f).flatten).length = blockChars t := by
  cases t <;> cases cw <;> rfl

theorem vdecRegs_length {t : Tier} {cw : CharWidth} {rd : Nat → Nat} {i0 : Nat} {v : VecRegs}
    (h : (vdecRegs t cw rd i0 v).2 = true) : (vdecRegs t cw rd i0 v).1.p.length = blockBytes t := by
  unfold vdecRegs at h ⊢
  simp only at h ⊢
  generalize (if 1 < cw.bytes then rangeMask cw (loadText t cw rd i0 v) else loadText t cw rd i0 v) = v2 at h ⊢
  generalize (decide (1 < cw.bytes) && rangeFails v2) = c1 at h ⊢
  generalize covered (classify (repack v2)) = c2 at h ⊢
  cases c1 <;> cases c2 <;> simp at h ⊢
  simp [gather, lanes]

/-- What a block can do: fail, in a decode command, or store its elements and advance (R154, R178, R30). -/
theorem blockUnit_cases (j : Job) (s : State) :
    (j.instr.op = .dec ∧ ∃ v, blockUnit j s = .stop (raiseInvalidChar j { s with vec := v })) ∨
    ∃ v vs, vs.length = blockOutput j.instr.op s.params.tier ∧ blockUnit j s =
      .go { s with
        vec := v
        mem := dstWriteAll j s.mem s.outOff vs
        inOff := s.inOff + blockInput j.instr.op s.params.tier
        outOff := s.outOff + blockOutput j.instr.op s.params.tier } := by
  unfold blockUnit
  cases hop : j.instr.op with
  | dec =>
    simp only [decBlockUnit, vdecBlock]
    split
    · rename_i h
      refine .inr ⟨_, _, ?_, rfl⟩
      rw [List.length_map]
      exact vdecRegs_length h
    · exact .inl ⟨trivial, _, rfl⟩
  | enc =>
    refine .inr ⟨_, _, ?_, rfl⟩
    rw [List.length_map]
    rw [vencRegs_spec]
    exact length_flatten_bank _ _ _

/-- What a scalar unit can do: fail, in a decode command, or store its elements (R122, R123, R128). -/
theorem scalarUnit_cases (j : Job) (p : Nat) (s : State) :
    (j.instr.op = .dec ∧ scalarUnit j p s = .stop (raiseInvalidChar j s)) ∨
    ∃ vs, vs.length = unitOutput j.instr.op ∧ scalarUnit j p s =
      .go { s with mem := dstWriteAll j s.mem (s.outOff + p * unitOutput j.instr.op) vs } := by
  unfold scalarUnit
  cases hop : j.instr.op with
  | dec =>
    simp only [sdecPair]
    split
    · exact .inl ⟨trivial, rfl⟩
    · refine .inr ⟨[((lookup j.instr.cw (srcRead j s.mem (s.inOff + 2 * p)) <<< 4) |||
        lookup j.instr.cw (srcRead j s.mem (s.inOff + 2 * p + 1))).toNat], rfl, ?_⟩
      simp only [unitOutput, Nat.mul_one, dstWriteAll]
  | enc =>
    let b : Byte := BitVec.ofNat 8 (srcRead j s.mem (s.inOff + p))
    refine .inr ⟨[charOf (b.extractLsb' 4 4), charOf (b.extractLsb' 0 4)], rfl, ?_⟩
    simp only [sencByte, unitOutput, dstWriteAll, Nat.mul_comm p 2, b]

/-- What a block that goes on does to the offsets and the parameters (R30). -/
theorem blockUnit_go {j : Job} {s s' : State} (h : blockUnit j s = .go s') :
    s'.params = s.params ∧ s'.inOff = s.inOff + blockInput j.instr.op s.params.tier ∧
      s'.outOff = s.outOff + blockOutput j.instr.op s.params.tier := by
  rcases blockUnit_cases j s with ⟨_, v, e⟩ | ⟨v, vs, _, e⟩
  · rw [h] at e; cases e
  · rw [h] at e; cases e; exact ⟨rfl, rfl, rfl⟩

/-- A loop of units that ends with an error ends as InvalidCharacterError (R223). -/
theorem repeat_stop {f : Nat → State → Flow}
    (hf : ∀ p s s', f p s = .stop s' → s'.status = .errInvalidChar) (n : Nat) {p : Nat} {s s' : State}
    (h : repeatUnits f n p s = .stop s') : s'.status = .errInvalidChar := by
  induction n generalizing p s with
  | zero => cases h
  | succ n ih =>
    simp only [repeatUnits] at h
    cases hx : f p s with
    | stop s1 => rw [hx] at h; cases h; exact hf _ _ _ hx
    | go s1 => rw [hx] at h; exact ih h

theorem blockUnit_stop {j : Job} {s s' : State} (h : blockUnit j s = .stop s') :
    s'.status = .errInvalidChar := by
  rcases blockUnit_cases j s with ⟨_, v, e⟩ | ⟨v, vs, _, e⟩
  · rw [h] at e; cases e; simp
  · rw [h] at e; cases e

theorem scalarUnit_stop {j : Job} {p : Nat} {s s' : State} (h : scalarUnit j p s = .stop s') :
    s'.status = .errInvalidChar := by
  rcases scalarUnit_cases j p s with ⟨_, e⟩ | ⟨vs, _, e⟩
  · rw [h] at e; cases e; simp
  · rw [h] at e; cases e

/-- What one step of a running command can do (R263). -/
inductive TickOf (j : Job) (s : State) : State → Prop where
  | short : j.phase = .check → capacityShort j.instr.op j.len j.cap = true →
      TickOf j s (endCommand .errCapacity s)
  | start : j.phase = .check → capacityShort j.instr.op j.len j.cap = false →
      TickOf j s
        { s with
          status := .busy { j with
            phase := .work (fullBlocks j.instr.op s.params.tier j.len) 0
              (tailUnits j.instr.op s.params.tier j.len) } }
  | blockBad (b p u : Nat) (v : VecRegs) : j.phase = .work (b + 1) p u → j.instr.op = .dec →
      TickOf j s (raiseInvalidChar j { s with vec := v })
  | block (b p u : Nat) (v : VecRegs) (vs : List Nat) : j.phase = .work (b + 1) p u →
      vs.length = blockOutput j.instr.op s.params.tier →
      TickOf j s
        { s with
          vec := v
          mem := dstWriteAll j s.mem s.outOff vs
          inOff := s.inOff + blockInput j.instr.op s.params.tier
          outOff := s.outOff + blockOutput j.instr.op s.params.tier
          status := .busy { j with phase := .work b p u } }
  | scalarBad (p u : Nat) : j.phase = .work 0 p (u + 1) → j.instr.op = .dec →
      TickOf j s (raiseInvalidChar j s)
  | scalar (p u : Nat) (vs : List Nat) : j.phase = .work 0 p (u + 1) →
      vs.length = unitOutput j.instr.op →
      TickOf j s
        { s with
          mem := dstWriteAll j s.mem (s.outOff + p * unitOutput j.instr.op) vs
          status := .busy { j with phase := .work 0 (p + 1) u } }
  | done (p : Nat) : j.phase = .work 0 p 0 → TickOf j s (endCommand .ok s)

theorem tick_cases (j : Job) (s : State) : TickOf j s (tick j s) := by
  unfold tick
  split
  · rename_i h
    split
    · rename_i hc; exact .short h hc
    · rename_i hc; exact .start h (by simpa using hc)
  · rename_i b p u h
    rcases blockUnit_cases j s with ⟨hop, v, e⟩ | ⟨v, vs, hv, e⟩
    · rw [e]; exact .blockBad b p u v h hop
    · rw [e]; exact .block b p u v vs h hv
  · rename_i p u h
    rcases scalarUnit_cases j p s with ⟨hop, e⟩ | ⟨vs, hv, e⟩
    · rw [e]; exact .scalarBad p u h hop
    · rw [e]; exact .scalar p u vs h hv
  · rename_i p h
    exact .done p h

theorem blocks_go {j : Job} (b : Nat) {q : Nat} {s s' : State}
    (h : repeatUnits (fun _ => blockUnit j) b q s = .go s') :
    s'.params = s.params ∧ s'.inOff = s.inOff + b * blockInput j.instr.op s.params.tier ∧
      s'.outOff = s.outOff + b * blockOutput j.instr.op s.params.tier := by
  induction b generalizing q s with
  | zero => cases h; simp
  | succ b ih =>
    simp only [repeatUnits] at h
    cases hx : blockUnit j s with
    | stop s1 => rw [hx] at h; cases h
    | go s1 =>
      rw [hx] at h
      obtain ⟨a1, a2, a3⟩ := blockUnit_go hx
      obtain ⟨b1, b2, b3⟩ := ih h
      rw [a1] at b1 b2 b3
      refine ⟨b1, ?_, ?_⟩
      · rw [b2, a2, Nat.succ_mul]; omega
      · rw [b3, a3, Nat.succ_mul]; omega

theorem Flow.andThen_congr {x : Flow} {f g : State → Flow} (h : ∀ s, x = .go s → f s = g s) :
    x.andThen f = x.andThen g := by
  cases x with
  | go s => exact h s rfl
  | stop s => rfl

/-- The scalar units read the offsets, which they do not change. -/
theorem scalars_fixed {j : Job} (f : Nat → Nat → Nat → State → Flow)
    (hs : ∀ p s, scalarUnit j p s = f s.inOff s.outOff p s)
    (hk : ∀ i o p s s', f i o p s = .go s' → s'.inOff = s.inOff ∧ s'.outOff = s.outOff) (u p : Nat)
    (s : State) : repeatUnits (scalarUnit j) u p s = repeatUnits (f s.inOff s.outOff) u p s := by
  induction u generalizing p s with
  | zero => rfl
  | succ u ih =>
    simp only [repeatUnits, hs]
    refine Flow.andThen_congr fun s1 h1 => ?_
    obtain ⟨e1, e2⟩ := hk _ _ _ _ _ h1
    rw [ih, e1, e2]

theorem sdecPair_offsets {j : Job} {i o p : Nat} {s s' : State} (h : sdecPair j i o p s = .go s') :
    s'.inOff = s.inOff ∧ s'.outOff = s.outOff := by
  unfold sdecPair at h
  simp only at h
  split at h
  · cases h
  · cases h; exact ⟨rfl, rfl⟩

theorem scalars_dec {j : Job} (hop : j.instr.op = .dec) (u p : Nat) (s : State) :
    repeatUnits (scalarUnit j) u p s = repeatUnits (sdecPair j s.inOff s.outOff) u p s :=
  scalars_fixed (fun i o => sdecPair j i o) (fun p s => by simp [scalarUnit, hop])
    (fun _ _ _ _ _ h => sdecPair_offsets h) u p s

theorem scalars_enc {j : Job} (hop : j.instr.op = .enc) (u p : Nat) (s : State) :
    repeatUnits (scalarUnit j) u p s = repeatUnits (sencByte j s.inOff s.outOff) u p s :=
  scalars_fixed (fun i o => sencByte j i o) (fun p s => by simp [scalarUnit, hop])
    (fun _ _ _ _ _ h => by cases h; exact ⟨rfl, rfl⟩) u p s

/-- The work of a command after its capacity check: the block loop, then the scalar loop (R190). -/
def workFlow (j : Job) (s : State) : Flow :=
  (repeatUnits (fun _ => blockUnit j) (fullBlocks j.instr.op s.params.tier j.len) 0 s).andThen
    (repeatUnits (scalarUnit j) (tailUnits j.instr.op s.params.tier j.len) 0)

/-- `DEC` as its units of work; the scalar engine's own capacity check cannot fail (R131). -/
theorem dec_units {j : Job} {s : State} (hop : j.instr.op = .dec) (hi : s.inOff = 0) (ho : s.outOff = 0)
    (hc : capacityShort .dec j.len j.cap = false) : dec j s = (workFlow j s).close := by
  have hcap : ¬ j.cap * 2 < j.len := by simpa [capacityShort] using hc
  unfold dec workFlow
  rw [hop]
  cases ht : hasVector s.params.tier with
  | false =>
    simp [sdec, hc, fullBlocks, ht, tailUnits, repeatUnits, Flow.andThen, scalars_dec hop, hi, ho]
  | true =>
    have hf : fullBlocks .dec s.params.tier j.len = j.len / blockChars s.params.tier := by
      simp [fullBlocks, ht, blockInput]
    have hb : (fun (_ : Nat) => decBlockUnit j) = fun _ => blockUnit j := by
      funext n s; simp [blockUnit, hop]
    simp only [if_true, hc, Bool.false_eq_true, if_false, hf, hb]
    congr 1
    refine Flow.andThen_congr fun s1 h1 => ?_
    obtain ⟨e1, e2, e3⟩ := blocks_go _ h1
    rw [hi, Nat.zero_add, hop] at e2
    rw [ho, Nat.zero_add, hop] at e3
    have hsp := dec_split s.params.tier j.len
    have hbc := blockChars_eq s.params.tier
    simp only [blockInput] at e2
    simp only [blockOutput] at e3
    have e23 : s1.inOff = 2 * s1.outOff := by rw [e2, e3]; simp only [hbc]; ring
    rw [← e3] at hsp
    have hc2 : capacityShort .dec (j.len - s1.inOff) (j.cap - s1.outOff) = false := by
      simp only [capacityShort, decide_eq_false_iff_not]; omega
    have htu : tailUnits .dec s.params.tier j.len = (j.len - s1.inOff) / 2 := by
      simp only [tailUnits, hf, blockInput, e2]
    unfold decTail sdec
    rw [hc2, htu, scalars_dec hop]
    simp only [Bool.false_eq_true, if_false]
    split
    · rfl
    · rw [show (j.len - s1.inOff) / 2 = 0 by omega]; rfl

/-- `ENC` as its units of work. -/
theorem enc_units {j : Job} {s : State} (hop : j.instr.op = .enc) (hi : s.inOff = 0) (ho : s.outOff = 0)
    (hc : capacityShort .enc j.len j.cap = false) : enc j s = (workFlow j s).close := by
  have hcap : ¬ j.cap < j.len * 2 := by simpa [capacityShort] using hc
  unfold enc workFlow
  rw [hop]
  cases ht : hasVector s.params.tier with
  | false =>
    simp [senc, hc, fullBlocks, ht, tailUnits, repeatUnits, Flow.andThen, scalars_enc hop, hi, ho]
  | true =>
    have hf : fullBlocks .enc s.params.tier j.len = j.len / blockBytes s.params.tier := by
      simp [fullBlocks, ht, blockInput]
    have hb : (fun (_ : Nat) => encBlockUnit j) = fun _ => blockUnit j := by
      funext n s; simp [blockUnit, hop]
    simp only [if_true, hc, Bool.false_eq_true, if_false, hf, hb]
    congr 1
    refine Flow.andThen_congr fun s1 h1 => ?_
    obtain ⟨e1, e2, e3⟩ := blocks_go _ h1
    rw [hi, Nat.zero_add, hop] at e2
    rw [ho, Nat.zero_add, hop] at e3
    have hbc := blockChars_eq s.params.tier
    simp only [blockInput] at e2
    simp only [blockOutput] at e3
    have e23 : s1.outOff = 2 * s1.inOff := by rw [e2, e3]; simp only [hbc]; ring
    have hle : s1.inOff ≤ j.len := by rw [e2]; exact Nat.div_mul_le_self _ _
    have hc2 : capacityShort .enc (j.len - s1.inOff) (j.cap - s1.outOff) = false := by
      simp only [capacityShort, decide_eq_false_iff_not]; omega
    have htu : tailUnits .enc s.params.tier j.len = j.len - s1.inOff := by
      simp only [tailUnits, hf, blockInput, e2]
    unfold encTail senc
    rw [hc2, htu, scalars_enc hop]
    simp only [Bool.false_eq_true, if_false]

end Sys2Proof.Machine
end

