-- ==== Sys2Proof/Laws/Invariant.lean ====
section
/-! SUPPORT. Laws of the place a running command stands at (`phaseOk`): what is left of the views there, and
that the next place is reached (10_state.md R30). -/

namespace Sys2Proof.Machine

theorem blocks_fit (op : Op) (t : Tier) (n : Nat) :
    fullBlocks op t n * blockInput op t ≤ n := by
  unfold fullBlocks
  split
  · exact Nat.div_mul_le_self _ _
  · simp

/-- The destination elements of `b` blocks and `u` scalar units of the command (R60). -/
theorem output_fits {op : Op} {t : Tier} {n cap b u : Nat} (hc : capacityShort op n cap = false)
    (hb : b ≤ fullBlocks op t n) (hu : b < fullBlocks op t n → u = 0) (hu2 : u ≤ tailUnits op t n) :
    b * blockOutput op t + u * unitOutput op ≤ cap ∧ b * blockInput op t ≤ n := by
  have h1 := blocks_fit op t n
  have h2 := Nat.mul_le_mul_right (blockInput op t) hb
  have h3 := blockChars_eq t
  refine ⟨?_, by omega⟩
  cases op with
  | dec =>
    simp only [capacityShort, decide_eq_false_iff_not, tailUnits, blockInput, blockOutput, unitOutput] at *
    have e : b * blockChars t = 2 * (b * blockBytes t) := by rw [h3]; ring
    by_cases hlt : b < fullBlocks .dec t n
    · rw [hu hlt]; omega
    · have : b = fullBlocks .dec t n := by omega
      subst this; omega
  | enc =>
    simp only [capacityShort, decide_eq_false_iff_not, tailUnits, blockInput, blockOutput, unitOutput] at *
    have e : b * blockChars t = 2 * (b * blockBytes t) := by rw [h3]; ring
    by_cases hlt : b < fullBlocks .enc t n
    · rw [hu hlt]; omega
    · have : b = fullBlocks .enc t n := by omega
      subst this; omega

/-- `phaseOk` for a command at work, in one form for both operations. -/
theorem phaseOk_work {t : Tier} {j : Job} {i o b p u : Nat} (hp : j.phase = .work b p u) :
    phaseOk t j i o ↔
      capacityShort j.instr.op j.len j.cap = false ∧ b ≤ fullBlocks j.instr.op t j.len ∧
        p + u = tailUnits j.instr.op t j.len ∧ (0 < b → p = 0) ∧
        i = (fullBlocks j.instr.op t j.len - b) * blockInput j.instr.op t ∧
        o = (fullBlocks j.instr.op t j.len - b) * blockOutput j.instr.op t := by
  unfold phaseOk
  rw [hp]
  simp only
  cases j.instr.op <;> rfl

theorem phaseOk_start {t : Tier} {j : Job} (hc : capacityShort j.instr.op j.len j.cap = false) :
    phaseOk t { j with phase := .work (fullBlocks j.instr.op t j.len) 0 (tailUnits j.instr.op t j.len) } 0 0 := by
  rw [phaseOk_work rfl]
  simp [hc]

theorem phaseOk_block {t : Tier} {j : Job} {i o b p u : Nat} (hp : j.phase = .work (b + 1) p u)
    (h : phaseOk t j i o) :
    phaseOk t { j with phase := .work b p u } (i + blockInput j.instr.op t) (o + blockOutput j.instr.op t) := by
  rw [phaseOk_work hp] at h
  rw [phaseOk_work rfl]
  obtain ⟨h1, h2, h3, h4, h5, h6⟩ := h
  refine ⟨h1, Nat.le_of_succ_le h2, h3, fun _ => h4 (by omega), ?_, ?_⟩
  · show _ = (fullBlocks j.instr.op t j.len - b) * blockInput j.instr.op t
    rw [h5, show fullBlocks j.instr.op t j.len - b = (fullBlocks j.instr.op t j.len - (b + 1)) + 1 by omega,
      Nat.succ_mul]
  · show _ = (fullBlocks j.instr.op t j.len - b) * blockOutput j.instr.op t
    rw [h6, show fullBlocks j.instr.op t j.len - b = (fullBlocks j.instr.op t j.len - (b + 1)) + 1 by omega,
      Nat.succ_mul]

theorem phaseOk_scalar {t : Tier} {j : Job} {i o p u : Nat} (hp : j.phase = .work 0 p (u + 1))
    (h : phaseOk t j i o) : phaseOk t { j with phase := .work 0 (p + 1) u } i o := by
  rw [phaseOk_work hp] at h
  rw [phaseOk_work rfl]
  obtain ⟨h1, h2, h3, h4, h5, h6⟩ := h
  exact ⟨h1, h2, by show p + 1 + u = tailUnits j.instr.op t j.len; omega, fun h => absurd h (by omega), h5, h6⟩

/-- A block stores inside the destination view (R153, R177). -/
theorem phaseOk_blockRoom {t : Tier} {j : Job} {i o b p u : Nat} (hp : j.phase = .work (b + 1) p u)
    (h : phaseOk t j i o) : o + blockOutput j.instr.op t ≤ j.cap := by
  rw [phaseOk_work hp] at h
  obtain ⟨h1, h2, h3, h4, h5, h6⟩ := h
  have := (output_fits (t := t) (b := fullBlocks j.instr.op t j.len - (b + 1) + 1) (u := 0) h1 (by omega)
    (fun _ => rfl) (Nat.zero_le _)).1
  rw [Nat.succ_mul] at this
  omega

/-- A scalar unit stores inside the destination view (R122, R128). -/
theorem phaseOk_scalarRoom {t : Tier} {j : Job} {i o p u : Nat} (hp : j.phase = .work 0 p (u + 1))
    (h : phaseOk t j i o) : o + p * unitOutput j.instr.op + unitOutput j.instr.op ≤ j.cap := by
  rw [phaseOk_work hp] at h
  obtain ⟨h1, h2, h3, h4, h5, h6⟩ := h
  have := (output_fits (t := t) (b := fullBlocks j.instr.op t j.len) (u := p + 1) h1 (Nat.le_refl _)
    (fun h => absurd h (Nat.lt_irrefl _)) (by omega)).1
  rw [Nat.succ_mul] at this
  rw [Nat.sub_zero] at h6
  omega

/-- The offsets stay inside the views (R30). -/
theorem phaseOk_offsets {t : Tier} {j : Job} {i o : Nat} (h : phaseOk t j i o) : i ≤ j.len ∧ o ≤ j.cap := by
  cases hp : j.phase with
  | check => unfold phaseOk at h; rw [hp] at h; obtain ⟨rfl, rfl⟩ := h; omega
  | work b p u =>
    rw [phaseOk_work hp] at h
    obtain ⟨h1, h2, h3, h4, h5, h6⟩ := h
    have := output_fits (t := t) (b := fullBlocks j.instr.op t j.len - b) (u := 0) h1 (by omega)
      (fun _ => rfl) (Nat.zero_le _)
    omega

end Sys2Proof.Machine
end

