-- ==== Sys2Proof/Laws/PerInstr.lean ====
section
/-! SUPPORT. Laws stated for every command, one lemma per constructor. Family `Fields`: the byte of a command
holds its fields and no other bit, and its width is `2^CWSEL` (30_encoding.md R80, R82, R84). -/

namespace Sys2Proof.Laws.Fields

/-- The command is well formed, the fields of its byte are its own, and `CW = 2^CWSEL` (R82). -/
def Statement (i : Instr) : Prop :=
  i.wf = true ∧ commandWord (encode i) = i.word ∧ i.cw.bytes = 2 ^ i.word.cwsel.toNat

theorem decC1 : Statement .decC1 := ⟨rfl, rfl, rfl⟩

theorem decC2 : Statement .decC2 := ⟨rfl, rfl, rfl⟩

theorem decC4 : Statement .decC4 := ⟨rfl, rfl, rfl⟩

theorem encC1 : Statement .encC1 := ⟨rfl, rfl, rfl⟩

theorem encC2 : Statement .encC2 := ⟨rfl, rfl, rfl⟩

theorem encC4 : Statement .encC4 := ⟨rfl, rfl, rfl⟩

end Sys2Proof.Laws.Fields
end

