-- ==== Sys2Proof/Tests/Slice0.lean ====
section
/-! SUPPORT. The model's own tests: ill-formed terms that WellFormed refuses, command bytes written out bit by
bit, the worked examples of 95_test_vectors.md, and for every obligation with hypotheses a state that meets
them all. Expected values come from the spec's tables and examples. -/

namespace Sys2Proof.Tests

open Sys2Proof.Machine

/-- Bytes at rising addresses from `a` on. -/
def put (m : Memory) (a : Nat) : List Nat → Memory
  | [] => m
  | b :: bs => put (m.write a (BitVec.ofNat 8 b)) (a + 1) bs

/-- An idle unit with 16-bit addresses and lengths and the given operands. -/
def unit (t : Tier) (fo : FailOutput) (src len dst cap : Nat) (m : Memory) : State :=
  { State.resetOf { tier := t, addrBits := 16, lenBits := 16, failOutput := fo } with
    srcBase := src, srcLen := len, dstBase := dst, dstCap := cap, mem := m }

/-- `n` bytes of memory from `a` on. -/
def dump (m : Memory) (a n : Nat) : List Nat := (List.range n).map fun k => (m.read (a + k)).toNat

/-- The state a command leaves. -/
def after (i : Instr) (s : State) : State :=
  match exec i s with
  | .next t => t
  | .fault _ => s
  | .refused _ => s

/-- The code a command ends with, and `n` bytes of memory from `DST_BASE` on. -/
def outcome (i : Instr) (s : State) (n : Nat) : BitVec 3 × List Nat :=
  ((after i s).status.code, dump (after i s).mem s.dstBase n)

/-- The refusal a command ends with. -/
def refusal (i : Instr) (s : State) : Option Refusal :=
  match exec i s with
  | .next _ => none
  | .fault _ => none
  | .refused r => some r

/-- A hex string as 1-byte code units. -/
def text (s : String) : List Nat := s.toList.map Char.toNat

/-- Code units of `w` bytes, little-endian (R54). -/
def wideText (w : Nat) (us : List Nat) : List Nat :=
  us.flatMap fun u => (List.range w).map fun d => u / 256 ^ d % 256

/-! Well-formedness: each check refuses an ill-formed term. -/

theorem test_wf_reserved_bits : CommandWord.wf { rsv := 1, cwsel := 0, op := 1 } = false := by decide

theorem test_wf_reserved_op_zero : CommandWord.wf { rsv := 0, cwsel := 0, op := 0 } = false := by decide

theorem test_wf_reserved_op_three : CommandWord.wf { rsv := 0, cwsel := 1, op := 3 } = false := by decide

theorem test_wf_reserved_width : CommandWord.wf { rsv := 0, cwsel := 3, op := 2 } = false := by decide

theorem test_wf_params_addr :
    Params.wf { tier := .wide, addrBits := 0, lenBits := 8, failOutput := .contract } = false := by decide

theorem test_wf_params_len :
    Params.wf { tier := .wide, addrBits := 8, lenBits := 0, failOutput := .contract } = false := by decide

theorem test_wf_wr_cmd : HostAct.wf Config.resetParams (.wr .cmd 256) = false := by decide

theorem test_wf_wr_srcLen : HostAct.wf Config.resetParams (.wr .srcLen (2 ^ 32)) = false := by decide

theorem test_wf_store : HostAct.wf Config.resetParams (.store (2 ^ 32) 0) = false := by decide

theorem test_wf_load : HostAct.wf Config.resetParams (.load (2 ^ 32)) = false := by decide

theorem test_wf_line_src :
    CommandLine.wf Config.resetParams { instr := .decC1, src := 2 ^ 32, n := 0, dst := 0, cap := 0 } = false := by
  decide

theorem test_wf_line_n :
    CommandLine.wf Config.resetParams { instr := .decC1, src := 0, n := 2 ^ 32, dst := 0, cap := 0 } = false := by
  decide

theorem test_wf_line_dst :
    CommandLine.wf Config.resetParams { instr := .decC1, src := 0, n := 0, dst := 2 ^ 32, cap := 0 } = false := by
  decide

theorem test_wf_line_cap :
    CommandLine.wf Config.resetParams { instr := .decC1, src := 0, n := 0, dst := 0, cap := 2 ^ 32 } = false := by
  decide

theorem test_wf_enca_doubled :
    EncaLine.wf Config.resetParams { cw := .one, src := 0, n := 2 ^ 31, dst := 0 } = false := by decide

/-! Decoding (R80 to R84, 95_test_vectors.md section 2.8): `RSV`, `CWSEL`, `OP` bit by bit. -/

theorem test_decode_decC1 : decode 0b0000_00_01 = .command .decC1 := by decide

theorem test_decode_decC2 : decode 0b0000_01_01 = .command .decC2 := by decide

theorem test_decode_decC4 : decode 0b0000_10_01 = .command .decC4 := by decide

theorem test_decode_encC1 : decode 0b0000_00_10 = .command .encC1 := by decide

theorem test_decode_encC2 : decode 0b0000_01_10 = .command .encC2 := by decide

theorem test_decode_encC4 : decode 0b0000_10_10 = .command .encC4 := by decide

theorem test_decode_zero : decode 0b0000_00_00 = .illegal .reservedOp := by decide

theorem test_decode_op_three : decode 0b0000_10_11 = .illegal .reservedOp := by decide

theorem test_decode_width_three : decode 0b0000_11_01 = .illegal .reservedWidth := by decide

theorem test_decode_high_bits : decode 0b1000_00_01 = .illegal .reservedBits := by decide

theorem test_encode_bytes :
    [Instr.decC1, .decC2, .decC4, .encC1, .encC2, .encC4].map encode = [0x01, 0x05, 0x09, 0x02, 0x06, 0x0A] := by
  decide

theorem test_table_word : decodeTableWord 8 0x0A = some .encC4 ∧ decodeTableWord 8 0x0B = none := by decide

/-! The tables (95_test_vectors.md sections 2.1, 2.2). -/

theorem test_n2c : (List.range 16).map (fun n => (n2c (BitVec.ofNat 4 n)).toNat) = text "0123456789abcdef" := by
  decide

theorem test_c2n_edges :
    [0x00, 0x20, 0x21, 0x2F, 0x3A, 0x40, 0x47, 0x60, 0x67, 0x7F, 0x80, 0xB0, 0xC1, 0xE1, 0xFF].all
      (fun i => c2n (BitVec.ofNat 8 i) == INVALID) = true := by decide

theorem test_lookup_valid :
    lookup .one 0x62 = 11 ∧ lookup .one 0x46 = 15 ∧ lookup .two 0x30 = 0 ∧ lookup .four 0x66 = 15 := by decide

theorem test_lookup_wide :
    lookup .two 0x0130 = INVALID ∧ lookup .two 0x0100 = INVALID ∧ lookup .two 0xFF30 = INVALID ∧
      lookup .two 0x3000 = INVALID ∧ lookup .four 0x00010041 = INVALID ∧ lookup .four 0xFFFFFF30 = INVALID := by
  decide

/-! Memory and reset. -/

theorem test_memory_removes_unlisted : put (put [] 3 [7]) 3 [0] = [] := by decide

theorem test_memory_sorted : put (put [] 9 [1]) 4 [2, 0, 3] = [(4, 2), (6, 3), (9, 1)] := by decide

theorem test_memory_wf_refuses :
    Memory.wf [(4, 1), (4, 2)] = false ∧ Memory.wf [(5, 1), (4, 2)] = false ∧ Memory.wf [(4, 0)] = false := by decide

theorem test_memRead_little : memRead (put [] 0 [0x30, 0x01]) 0 2 = 0x0130 := by decide

theorem test_reset_wf : State.reset.mem.wf = true ∧ State.reset.params.wf = true ∧ State.reset.status = .idle := by
  decide

/-! The block steps, register by register (95_test_vectors.md sections 2.4, 2.5). -/

def blockOk : List Nat := text "0123456789ABCDEF"

theorem test_block_decode_lanes :
    ((vdecRegs .narrow .one (blockOk.getD · 0) 0 (resetVec .narrow)).1.p.map BitVec.toNat) =
      [0x01, 0x23, 0x45, 0x67, 0x89, 0xAB, 0xCD, 0xEF] := by decide

theorem test_block_decode_uncovered :
    let r := vdecRegs .narrow .one ((text "fedcbaFEDC98g210").getD · 0) 0 (resetVec .narrow)
    r.2 = false ∧ r.1.x.map BitVec.toNat = [15, 14, 13, 12, 11, 10, 15, 14, 13, 12, 9, 8, 0x67, 2, 1, 0] := by decide

theorem test_block_normalise :
    let r := vdecRegs .narrow .two ((text "00ff7F80a5C3e1B2").getD · 0) 0 (resetVec .narrow)
    r.2 = true ∧ r.1.p.map BitVec.toNat = [0x00, 0xFF, 0x7F, 0x80, 0xA5, 0xC3, 0xE1, 0xB2] := by decide

theorem test_block_encode_lanes :
    (vencRegs .narrow .one ([0x00, 0x09, 0x0A, 0x9A, 0xA9, 0xF0, 0x0F, 0xFF].getD · 0) 0
        (resetVec .narrow)).z.flatten.map BitVec.toNat = text "00090a9aa9f00fff" := by decide

/-! The commands: at most two tests each (95_test_vectors.md sections 1 and 2). -/

theorem test_decC1_block :
    outcome .decC1 (unit .narrow .contract 0x100 16 0x400 8 (put [] 0x100 blockOk)) 9 =
      (2, [0x01, 0x23, 0x45, 0x67, 0x89, 0xAB, 0xCD, 0xEF, 0]) := by decide

theorem test_decC1_partial :
    outcome .decC1 (unit .generic .reference 0x100 4 0x400 2 (put [] 0x100 (text "12x4"))) 3 = (4, [0x12, 0, 0]) := by
  decide

theorem test_decC2_unaligned :
    outcome .decC2
      (unit .wide .contract 0x1001 4 0x2003 2 (put [] 0x1001 [0x63, 0, 0x41, 0, 0x66, 0, 0x45, 0])) 3 =
      (2, [0xCA, 0xFE, 0]) := by decide

theorem test_decC2_wide_unit :
    outcome .decC2 (unit .narrow .reference 0x100 2 0x400 1 (put [] 0x100 [0x30, 0x01, 0x30, 0x00])) 1 = (4, [0]) := by
  decide

theorem test_decC4_pair :
    outcome .decC4 (unit .wide .contract 0x100 2 0x400 1 (put [] 0x100 [0x46, 0, 0, 0, 0x66, 0, 0, 0])) 2 =
      (2, [0xFF, 0]) := by decide

theorem test_decC4_capacity :
    outcome .decC4 (unit .wide .contract 0x100 3 0x400 1 []) 1 = (3, [0]) := by decide

theorem test_encC1_block :
    outcome .encC1
      (unit .narrow .contract 0x100 8 0x400 16 (put [] 0x100 [0x01, 0x23, 0x45, 0x67, 0x89, 0xAB, 0xCD, 0xEF])) 16 =
      (2, text "0123456789abcdef") := by decide

theorem test_encC1_capacity :
    outcome .encC1 (unit .narrow .contract 0x100 2 0x400 3 (put [] 0x100 [0x10, 0x0F])) 4 = (3, [0, 0, 0, 0]) := by
  decide

theorem test_encC2_order :
    outcome .encC2 (unit .generic .contract 0x100 1 0x400 2 (put [] 0x100 [0x4A])) 4 = (2, [0x34, 0, 0x61, 0]) := by
  decide

theorem test_encC4_unaligned :
    outcome .encC4 (unit .narrow .contract 0x1000 1 0x2002 2 (put [] 0x1000 [0xB7])) 8 =
      (2, [0x62, 0, 0, 0, 0x37, 0, 0, 0]) := by decide

/-! The partial output of the three tiers (95_test_vectors.md section 2.7, rows 31 and 39). -/

theorem test_wRef_rows :
    [wRef .generic 40 31, wRef .narrow 40 31, wRef .wide 40 31, wRef .generic 40 39, wRef .narrow 40 39,
      wRef .wide 40 39] = [15, 8, 0, 19, 19, 19] := by decide

theorem test_wGuar_rows :
    [wGuar .generic 31, wGuar .narrow 31, wGuar .wide 31, wGuar .generic 39, wGuar .narrow 39, wGuar .wide 39] =
      [0, 8, 0, 0, 16, 16] := by decide

/-! Steps (95_test_vectors.md section 2.6) and the fetch of a table word. -/

theorem test_steps_odd :
    commandSteps .decC1 .narrow 33 = 4 ∧ commandSteps .decC1 .wide 17 = 10 ∧ commandSteps .encC1 .narrow 15 = 10 := by
  decide

theorem test_fetch :
    step (State.reset.withFetchWord 8 0x02) = exec .encC1 { State.reset with cmd := 0x02 } := by rfl

theorem test_illegal_write :
    hostTurn (.wr .cmd 0x0D) State.reset = .next { State.reset with cmd := 0x0D, status := .errIllegalCmd } := by rfl

theorem test_view_wraps : refusal .decC1 (unit .wide .contract 0xFFFF 2 0 1 []) = some .viewWraps := by decide

theorem test_views_overlap : refusal .encC2 (unit .wide .contract 0x103 1 0x100 2 []) = some .viewsOverlap := by decide

/-! Witnesses: for each obligation with hypotheses, a state and operands that meet them together; one for each
clause where a statement has several. -/

/-- "12x4" at 0x100, room for two bytes at 0x400: the first invalid character is number 2. -/
def bad (fo : FailOutput) : State := unit .generic fo 0x100 4 0x400 2 (put [] 0x100 (text "12x4"))

/-- One block and a tail of valid text, in the narrow tier. -/
def good : State := unit .narrow .contract 0x100 18 0x400 9 (put [] 0x100 (text "0123456789ABCDEFfF"))

/-- The same text in lower case. -/
def lowered : Memory := put [] 0x100 (text "0123456789abcdefff")

/-- Nine bytes to encode, one block and a tail in the narrow tier. -/
def bytes9 : State := unit .narrow .contract 0x100 9 0x400 18 (put [] 0x100 [1, 0x23, 0x45, 0x67, 0x89, 0xAB, 0xCD, 0xEF, 0xF0])

/-- The job of `good`, its second step next: one block, then one pair. -/
def goodJob : Job := { instr := .decC1, src := 0x100, len := 18, dst := 0x400, cap := 9, phase := .work 1 0 1 }

/-- `good` while it runs. -/
def running : State := { good with status := .busy goodJob }

theorem exec_after_good : exec .decC1 good = .next (after .decC1 good) := by rfl

theorem exec_after_bytes9 : exec .encC1 bytes9 = .next (after .encC1 bytes9) := by rfl

theorem witness_CommandBytesOfTheTable : decode 0x0A = .command .encC4 ∧ decode 0x0A = .command .encC4 := by decide

theorem witness_LegalBytesAndIllegalWrites :
    decode 0xFF = .illegal .reservedBits ∧ State.reset.isBusy = false := by decide

theorem witness_LookupTablesInverse : c2n 0x39 ≠ INVALID ∧ c2n 0x41 ≠ INVALID ∧ c2n 0x46 ≠ INVALID := by decide

/-- Sixteen lanes `'f'`. -/
def lanesF : VecRegs := { resetVec .narrow with x := lanes 16 fun _ => 0x66 }

theorem witness_ParallelLookupComputesTable_lane : ∃ h : 15 < lanesF.x.length, c2n lanesF.x[15] ≠ INVALID :=
  ⟨by decide, by decide⟩

theorem witness_ParallelLookupComputesTable_block :
    (∀ k, (fun _ : Nat => 0x46) k < 256 ^ CharWidth.one.bytes) ∧
      (vdecRegs .wide .one (fun _ => 0x46) 0 (resetVec .wide)).2 = true ∧ 31 < blockChars .wide :=
  ⟨fun _ => (by decide : 0x46 < 256 ^ CharWidth.one.bytes), by decide, by decide⟩

theorem witness_ParallelNibbleToCharacter :
    ({ resetVec .narrow with z := bank .narrow .two fun k => (BitVec.ofNat 4 k).setWidth 32 } : VecRegs).z =
        bank .narrow .two (fun k => (BitVec.ofNat 4 k).setWidth 32) ∧ 15 < blockChars .narrow := by decide

theorem witness_DecodeBlockAsOneFunction_valid :
    goodJob.instr.op = .dec ∧ goodJob.viewsDisjoint = true ∧ 2 + blockChars good.params.tier ≤ goodJob.len ∧
      1 + blockBytes good.params.tier ≤ goodJob.cap ∧
      ∀ k < blockChars good.params.tier, lookup .one (srcRead goodJob good.mem (2 + k)) ≠ INVALID := by decide

theorem witness_DecodeBlockAsOneFunction_invalid :
    let m := put good.mem 0x104 [0x21]
    goodJob.viewsDisjoint = true ∧ 0 + blockChars good.params.tier ≤ goodJob.len ∧
      0 + blockBytes good.params.tier ≤ goodJob.cap ∧ 4 < blockChars good.params.tier ∧
      lookup .one (srcRead goodJob m (0 + 4)) = INVALID ∧
      ∀ k < 4, lookup .one (srcRead goodJob m (0 + k)) ≠ INVALID := by decide

theorem witness_EncodeBlockWritesWhatSencWrites :
    (sampleJob .encC1 bytes9).viewsDisjoint = true ∧ 1 + blockBytes bytes9.params.tier ≤ (sampleJob .encC1 bytes9).len ∧
      2 + blockChars bytes9.params.tier ≤ (sampleJob .encC1 bytes9).cap := by decide

theorem witness_DecodeOfValidTextCompletes :
    Ready .decC1 good ∧ good.srcLen ≤ good.dstCap * 2 ∧ AllValid .decC1 good := by decide

theorem witness_DecodeOfValidTextCompletes_wide :
    let s := unit .wide .contract 0 2 8 1 (put [] 0 (wideText 4 [0x39, 0x66]))
    Ready .decC4 s ∧ s.srcLen ≤ s.dstCap * 2 ∧ AllValid .decC4 s := by decide

theorem witness_EncodeCompletes : Ready .encC1 bytes9 ∧ 2 * bytes9.srcLen ≤ bytes9.dstCap := by decide

theorem witness_EncodeCompletes_short :
    Ready .encC4 { bytes9 with dstCap := 17 } ∧ ({ bytes9 with dstCap := 17 } : State).dstCap < 2 * 9 := by decide

theorem witness_CapacityErrorTouchesNoMemory_dec :
    Ready .decC2 { good with dstCap := 8 } ∧ 8 * 2 < ({ good with dstCap := 8 } : State).srcLen := by decide

theorem witness_CapacityErrorTouchesNoMemory_enc :
    Ready .encC2 { bytes9 with dstCap := 17 } ∧ 17 < ({ bytes9 with dstCap := 17 } : State).srcLen * 2 := by decide

theorem witness_CapacityErrorTouchesNoMemory_status :
    ∃ t, exec .decC1 { good with dstCap := 8 } = .next t ∧ t.status = .errCapacity := ⟨_, rfl, rfl⟩

theorem witness_InvalidCharacterErrorExactly :
    Ready .decC1 (bad .contract) ∧ (bad .contract).srcLen ≤ (bad .contract).dstCap * 2 ∧
      2 < 2 * ((bad .contract).srcLen / 2) ∧ nibbleOf .decC1 (bad .contract) 2 = INVALID ∧
      (sampleJob .decC1 (bad .contract)).inSrc 0x103 = true := by decide

theorem witness_ReferenceOutputAfterInvalidCharacter :
    Ready .decC1 (bad .reference) ∧ (bad .reference).srcLen ≤ (bad .reference).dstCap * 2 ∧
      (bad .reference).params.failOutput = .reference ∧ FirstInvalid .decC1 (bad .reference) 2 := by decide

theorem witness_ContractOutputAfterInvalidCharacter :
    let s : State := { good with mem := put good.mem 0x110 [0x21] }
    Ready .decC1 s ∧ s.srcLen ≤ s.dstCap * 2 ∧ s.params.failOutput = .contract ∧ FirstInvalid .decC1 s 16 ∧
      7 < wGuar s.params.tier 16 ∧ 0 < s.dstCap - wGuar s.params.tier 16 := by decide

theorem witness_TiersAreInterchangeable :
    good.isBusy = false ∧ ∃ t u, exec .decC1 good = .next t ∧
      exec .decC1 { good with params := { good.params with tier := .wide } } = .next u ∧ t.status = .ok :=
  ⟨rfl, _, _, rfl, rfl, rfl⟩

theorem witness_EncodeThenDecodeGivesBytesBack :
    Ready (instrOf .enc .one) bytes9 ∧ bytes9.dstCap = 2 * bytes9.srcLen ∧
      exec (instrOf .enc .one) bytes9 = .next (after .encC1 bytes9) ∧
      Ready (instrOf .dec .one)
        { after .encC1 bytes9 with srcBase := 0x400, srcLen := 2 * 9, dstBase := 0x500, dstCap := 9 } :=
  ⟨by decide, rfl, rfl, by decide⟩

theorem witness_CaseNormalisation_decode :
    Ready .decC1 good ∧ good.srcLen ≤ good.dstCap * 2 ∧ AllValid .decC1 good ∧
      ∀ k < good.srcLen, srcElem .decC1 { good with mem := lowered } k = lowerCode (srcElem .decC1 good k) := by decide

theorem witness_CaseNormalisation_encode :
    Ready (instrOf .dec .one) good ∧ AllValid (instrOf .dec .one) good ∧
      exec (instrOf .dec .one) good = .next (after .decC1 good) ∧
      Ready (instrOf .enc .one)
        { after .decC1 good with srcBase := 0x400, srcLen := 18 / 2, dstBase := 0x500, dstCap := 18 } ∧
      2 * (good.srcLen / 2) ≤ 18 :=
  ⟨by decide, by decide, rfl, by decide, by decide⟩

theorem witness_EncodeWritesLowerCaseOnly :
    bytes9.isBusy = false ∧ (∃ t, exec .encC2 bytes9 = .next t ∧ t.status = .ok) ∧ 17 < 2 * bytes9.srcLen ∧
      0 < 1 ∧ 1 < Instr.encC2.cw.bytes :=
  ⟨rfl, ⟨_, rfl, rfl⟩, by decide, by decide, by decide⟩

theorem witness_WideCodeUnitsAreRejected :
    let s := unit .narrow .contract 0 2 8 1 (put [] 0 (wideText 2 [0x30, 0x0130]))
    Ready .decC2 s ∧ s.srcLen ≤ s.dstCap * 2 ∧ 1 < 2 * (s.srcLen / 2) ∧ 0xFF < srcElem .decC2 s 1 := by decide

theorem witness_OddLengthDecodesAsTruncated :
    let s := unit .narrow .contract 0x100 33 0x400 17 (put [] 0x100 (text "00112233445566778899aabbccddeeff!"))
    Ready .decC1 s ∧ s.srcLen % 2 = 1 ∧ s.srcLen ≤ s.dstCap * 2 := by decide

theorem witness_OddLengthDecodesAsTruncated_short :
    let s := unit .narrow .contract 0x100 33 0x400 16 []
    Ready .decC1 s ∧ s.srcLen % 2 = 1 ∧ s.dstCap * 2 < s.srcLen := by decide

theorem witness_CommandReadsNoMoreThanItsFootprint :
    let s := unit .generic .contract 0x100 3 0x400 2 (put [] 0x100 (text "00g"))
    s.isBusy = false ∧
      (∀ k < readCount .decC1 s, srcElem .decC1 { s with mem := put [] 0x100 (text "00x") } k = srcElem .decC1 s k) ∧
      (∃ t, exec .decC1 s = .next t) ∧ ∃ u, exec .decC1 { s with mem := put [] 0x100 (text "00x") } = .next u :=
  ⟨rfl, by decide, ⟨_, rfl⟩, _, rfl⟩

theorem witness_MemoryFrameOfCommands :
    good.isBusy = false ∧ (∃ t, exec .decC1 good = .next t ∧ t.status = .ok) ∧
      (sampleJob .decC1 good).inSrc 0x111 = true :=
  ⟨rfl, ⟨_, rfl, rfl⟩, by decide⟩

theorem witness_MemoryFrameOfCommands_short :
    ∃ t, exec .encC4 { bytes9 with dstCap := 17 } = .next t ∧ t.status = .errCapacity := ⟨_, rfl, rfl⟩

theorem witness_RegisterFrameOfCommands : ∃ t, exec .encC1 bytes9 = .next t := ⟨_, rfl⟩

theorem witness_CommandsEndInOneOfThreeCodes : Ready .encC1 bytes9 := by decide

theorem witness_ViewsOutsideTheSpecAreRefused : good.isBusy = false := by decide

theorem witness_WritesWhileBusyAreIgnored : running.isBusy = true := by decide

theorem witness_StepRunsTheDecodedCommand :
    ({ good with queue := [.call 0x01] } : State).queue = .call 0x01 :: [] ∧
      ({ good with queue := [.call 0x01] } : State).isBusy = false ∧ decode 0x01 = .command .decC1 := by decide

theorem witness_CmdWriteStartsCommand : decode (BitVec.ofNat 8 0x01) = .command .decC1 ∧ Ready .decC1 good := by decide

theorem witness_OperandRegisterWriteThenRead :
    good.isBusy = false ∧ 0xFFFF < 2 ^ Reg.width good.params .srcBase ∧ 0xFFFF < 2 ^ Reg.width good.params .dstCap := by
  decide

theorem witness_TailCapacityCheckCannotFail_dec :
    capacityShort .dec 33 17 = false ∧ 2 * blockChars .narrow ≤ 33 := by decide

theorem witness_TailCapacityCheckCannotFail_enc :
    capacityShort .enc 17 34 = false ∧ 1 * blockBytes .wide ≤ 17 := by decide

theorem witness_IllegalByteIsReported_call :
    ({ good with queue := [.call 0x0D] } : State).isBusy = false ∧ (∀ i, decode 0x0D ≠ .command i) ∧
      ({ good with queue := [.call 0x0D] } : State).queue = .call 0x0D :: [] :=
  ⟨rfl, fun i => by cases i <;> decide, rfl⟩

theorem witness_IllegalByteIsReported_write :
    (∀ i, decode 0x00 ≠ .command i) ∧
      ({ good with queue := [.wr .cmd (BitVec.toNat (0x00 : Byte))] } : State).queue = .wr .cmd 0 :: [] :=
  ⟨fun i => by cases i <;> decide, rfl⟩

theorem witness_ResetAtAnyTime :
    good.isBusy = false ∧ (bad .reference).params.failOutput = .reference ∧ running.status = .busy goodJob ∧
      goodJob.inDst 0x3FF = false ∧ goodJob.inDst 0x409 = false := by decide

theorem witness_StepByStepEqualsWholeCommand :
    Ready .decC1 good ∧ ∃ t, exec .decC1 good = .next t ∧ t.status = .ok := ⟨by decide, _, rfl, rfl⟩

theorem witness_RunningCommandEnds_check :
    ({ good with status := .busy (sampleJob .decC1 good) } : State).status = .busy (sampleJob .decC1 good) := by decide

theorem witness_RunningCommandEnds_work : running.status = .busy goodJob ∧ goodJob.phase = .work 1 0 1 := by decide

theorem witness_inv : Inv running where
  memWf := by decide
  memInside := by decide
  srcBaseFits := by decide
  srcLenFits := by decide
  dstBaseFits := by decide
  dstCapFits := by decide
  job := ⟨rfl, rfl, rfl, rfl, rfl, rfl, by decide, rfl, fun _ => rfl, rfl, rfl⟩

theorem witness_UnitStepFrame :
    Inv running ∧ running.status = .busy goodJob ∧ goodJob.inDst 0x409 = false ∧ goodJob.inSrc 0x111 = true :=
  ⟨witness_inv, rfl, by decide, by decide⟩

theorem witness_OffsetsStayInTheViews : Inv running ∧ running.isBusy = true := ⟨witness_inv, rfl⟩

theorem witness_StepKeepsInvariant : Inv running ∧ ∃ t, step running = .next t := ⟨witness_inv, _, rfl⟩

theorem witness_ParametersNeverChange : ∃ t, step running = .next t := ⟨_, rfl⟩

theorem witness_BuffersBelongToTheUnitWhileBusy :
    running.status = .busy goodJob ∧ 0xFFFF < 2 ^ running.params.addrBits ∧
      goodJob.inSrc 0x100 = true ∧ goodJob.inSrc 0x111 = true ∧ goodJob.inSrc 0x112 = false ∧
      goodJob.inDst 0x400 = true ∧ goodJob.inDst 0x408 = true ∧ goodJob.inDst 0x112 = false := by decide

theorem witness_NothingIsCarriedOver :
    let s' : State := { good with cmd := 0x0A, status := .errInvalidChar, inOff := 5, outOff := 3 }
    good.isBusy = false ∧ s'.isBusy = false ∧ good.params = s'.params ∧ good.mem = s'.mem ∧ good.draws = s'.draws ∧
      (∃ t, exec .decC1 good = .next t) ∧ ∃ t', exec .decC1 s' = .next t' :=
  ⟨rfl, rfl, rfl, rfl, rfl, ⟨_, rfl⟩, _, rfl⟩

/-- A command line inside 16-bit registers, its last operand at the top of its range. -/
def line : CommandLine := { instr := .decC1, src := 0x100, n := 18, dst := 0x400, cap := 9 }

theorem witness_CommandLineSetsOperandsThenRuns :
    good.isBusy = false ∧ line.wf good.params = true ∧
      ({ good with queue := commandLineActs line ++ [.idle] } : State).queue = commandLineActs line ++ [.idle] := by
  decide

theorem witness_EncaCannotFail :
    let c : EncaLine := { cw := .two, src := 0x100, n := 9, dst := 0x400 }
    let s : State := { bytes9 with queue := commandLineActs (encaCommandLine c) }
    s.isBusy = false ∧ c.wf s.params = true ∧
      Ready (encaCommandLine c).instr
        { s with srcBase := c.src, srcLen := c.n, dstBase := c.dst, dstCap := 2 * c.n } ∧
      s.queue = commandLineActs (encaCommandLine c) := by decide

end Sys2Proof.Tests
end

section
/-! SUPPORT. The decoder through the fields of a command byte (30_encoding.md R80 to R84): a byte decodes to
a command exactly when its three fields are that command's. -/

namespace Sys2Proof

/-- A byte is the concatenation of its three fields (R80). -/
theorem toByte_commandWord (c : Byte) : (commandWord c).toByte = c := by
  simp only [CommandWord.toByte, commandWord]
  rw [BitVec.extractLsb'_append_extractLsb'_eq_extractLsb' (show 4 = 2 + 2 from rfl),
    BitVec.extractLsb'_append_extractLsb'_eq_extractLsb' (show 2 = 0 + 2 from rfl), BitVec.setWidth_eq]
  exact BitVec.extractLsb'_eq_self

theorem commandWord_injective : Function.Injective commandWord :=
  Function.LeftInverse.injective toByte_commandWord

/-- The values of `OP` (R81). -/
theorem decodeOp_eq_op_iff (o : BitVec 2) (i : Instr) : decodeOp o = some i.op ↔ o = i.word.op := by
  cases i <;> revert o <;> decide

/-- The values of `CWSEL` (R82). -/
theorem decodeWidth_eq_cw_iff (sel : BitVec 2) (i : Instr) :
    decodeWidth sel = some i.cw ↔ sel = i.word.cwsel := by
  cases i <;> revert sel <;> decide

/-- A command is its operation and its width (R83). -/
theorem instrOf_eq_iff (op : Op) (cw : CharWidth) (i : Instr) :
    instrOf op cw = i ↔ op = i.op ∧ cw = i.cw := by
  cases i <;> cases op <;> cases cw <;> decide

/-- The three tests of the decoder (R84). -/
theorem decode_eq_command_iff_tests (c : Byte) (i : Instr) :
    decode c = .command i ↔ (commandWord c).rsvOk = true ∧ decodeOp (commandWord c).op = some i.op ∧
      decodeWidth (commandWord c).cwsel = some i.cw := by
  unfold decode
  generalize commandWord c = w
  cases hr : w.rsvOk
  · simp [hr]
  · cases ho : decodeOp w.op
    · simp [hr, ho]
    · cases hw : decodeWidth w.cwsel <;> simp [hr, ho, hw, instrOf_eq_iff]

theorem decode_eq_command_iff (c : Byte) (i : Instr) : decode c = .command i ↔ commandWord c = i.word := by
  have hrsv : i.word.rsv = 0 := rfl
  rw [decode_eq_command_iff_tests, decodeOp_eq_op_iff, decodeWidth_eq_cw_iff, CommandWord.mk.injEq, hrsv]
  simp [CommandWord.rsvOk, and_comm]

/-- The legality condition of R84 on the fields of a byte. -/
theorem wf_commandWord_iff (c : Byte) : (commandWord c).wf = true ↔
    c.extractLsb' 4 4 = 0 ∧ (c.extractLsb' 0 2 = 1 ∨ c.extractLsb' 0 2 = 2) ∧ c.extractLsb' 2 2 ≠ 3 := by
  simp [CommandWord.wf, CommandWord.rsvOk, CommandWord.opOk, CommandWord.cwselOk, commandWord, and_assoc]

/-- The well-formed words are those of the six commands (R83, R84). -/
theorem wf_iff_exists_word (w : CommandWord) : w.wf = true ↔ ∃ i : Instr, w = i.word := by
  constructor
  · obtain ⟨rsv, sel, op⟩ := w
    intro h
    simp only [CommandWord.wf, CommandWord.rsvOk, CommandWord.opOk, CommandWord.cwselOk, Bool.and_eq_true,
      Bool.or_eq_true, beq_iff_eq, bne_iff_ne] at h
    obtain ⟨⟨rfl, hop⟩, hsel⟩ := h
    have hsel' : sel = 0 ∨ sel = 1 ∨ sel = 2 := by revert sel; decide
    rcases hop with rfl | rfl <;> rcases hsel' with rfl | rfl | rfl
    · exact ⟨.decC1, rfl⟩
    · exact ⟨.decC2, rfl⟩
    · exact ⟨.decC4, rfl⟩
    · exact ⟨.encC1, rfl⟩
    · exact ⟨.encC2, rfl⟩
    · exact ⟨.encC4, rfl⟩
  · rintro ⟨i, rfl⟩
    cases i <;> rfl

/-- A byte decodes to some command exactly when its word is well formed (R84). -/
theorem exists_decode_eq_command_iff (c : Byte) :
    (∃ i, decode c = .command i) ↔ (commandWord c).wf = true := by
  simp only [decode_eq_command_iff, wf_iff_exists_word]

/-- The bytes of two different commands differ, and no other byte has the same meaning (R83). -/
theorem decode_command_injective {c d : Byte} {i : Instr} (hc : decode c = .command i)
    (hd : decode d = .command i) : c = d :=
  commandWord_injective
    (((decode_eq_command_iff c i).mp hc).trans ((decode_eq_command_iff d i).mp hd).symm)

end Sys2Proof
end

section
/-! SUPPORT. A host write of `CMD` (10_state.md R27, 60_exceptions.md R225). -/

namespace Sys2Proof.Machine

theorem writeReg_cmd_of_ready {s : State} (h : s.isBusy = false) (v : Nat) :
    writeReg .cmd v s = writeCmd beginCommand (BitVec.ofNat 8 v) s := by
  simp [writeReg, h]

/-- An illegal byte is stored and reported, and nothing starts (R225). -/
theorem writeCmd_illegal {b : Byte} {r : Illegal} (h : decode b = .illegal r)
    (run : Instr → State → Host.Outcome State Fault Refusal) (s : State) :
    writeCmd run b s = .next { s with cmd := b, status := .errIllegalCmd } := by
  simp [writeCmd, h, raiseIllegalCmd]

end Sys2Proof.Machine
end

section
/-! SUPPORT. The bytes an encode command leaves in its destination elements (41_scalar_engine.md R128,
44_dispatcher_commands.md R204). -/

namespace Sys2Proof.Machine

/-- Byte `d` of a written element is byte `d` of its value. -/
theorem Written.elem_byte {j : Job} {m0 m : Memory} {want : Nat → Nat} {n k d : Nat}
    (h : Written j m0 want n m) (hk : k < n) (hd : d < esDst j.instr) :
    m.read (j.dstAddr k + d) = BitVec.ofNat 8 (want k / 256 ^ d) := by
  have hend : j.dstAddr k + esDst j.instr ≤ j.dstAddr n := by
    rw [← Job.dstAddr_succ]; exact j.dstAddr_mono hk
  have hoff : j.dstAddr k + d - j.dst = d + k * esDst j.instr := by simp only [Job.dstAddr]; omega
  rw [h, if_pos (by simp only [Job.dstAddr] at *; omega), hoff,
    Nat.add_mul_div_right _ _ (esDst_pos j.instr), Nat.add_mul_mod_self_right,
    Nat.div_eq_of_lt hd, Nat.mod_eq_of_lt hd, Nat.zero_add]

/-- A written element whose value fits a byte holds that value; its upper bytes are 0. -/
theorem Written.elem_of_lt {j : Job} {m0 m : Memory} {want : Nat → Nat} {n k : Nat}
    (h : Written j m0 want n m) (hk : k < n) (hw : want k < 256) :
    dstRead j m k = want k ∧ ∀ d, 0 < d → d < esDst j.instr → m.read (j.dstAddr k + d) = 0 := by
  refine ⟨?_, fun d hpos hd => ?_⟩
  · rw [h.elem hk, Nat.mod_eq_of_lt]
    exact hw.trans_le (Nat.le_self_pow (esDst_pos j.instr).ne' 256)
  · rw [h.elem_byte hk hd, Nat.div_eq_of_lt (hw.trans_le (Nat.le_self_pow hpos.ne' 256))]
    rfl

/-- The entries of `N2C` (R104): `0` to `9` and `a` to `f`. -/
theorem n2c_lowerCase (n : BitVec 4) :
    (0x30 ≤ (n2c n).toNat ∧ (n2c n).toNat ≤ 0x39) ∨ (0x61 ≤ (n2c n).toNat ∧ (n2c n).toNat ≤ 0x66) := by
  revert n; decide

/-- Every character of the text of a byte is an entry of `N2C` (R126, R128). -/
theorem encWant_eq_n2c (j : Job) (m : Memory) (k : Nat) : ∃ n, encWant j m k = (n2c n).toNat := by
  unfold encWant charOf
  split
  · exact ⟨_, rfl⟩
  · exact ⟨_, rfl⟩

/-- An encode command that ended `OK` has written all its characters (R204). -/
theorem written_of_enc_ok {i : Instr} {s t : State} (hop : i.op = .enc) (hb : s.isBusy = false)
    (he : exec i s = .next t) (hok : t.status = .ok) :
    Written (sampleJob i s) s.mem (encWant (sampleJob i s) s.mem) (2 * s.srcLen) t.mem := by
  obtain ⟨-, hend⟩ := exec_ending hb he
  cases hend with
  | decShort hdec _ => simp [hop] at hdec
  | encShort _ _ => simp at hok
  | decOk _ hdec _ _ _ => simp [hop] at hdec
  | encOk s' _ _ p => exact p.written
  | decBad _ _ hdec _ _ _ _ => simp [hop] at hdec

end Sys2Proof.Machine
end

section
/-! CLAIMS. The statements of 30_encoding.md about command bytes and about the output alphabet. -/

namespace Sys2Proof.Machine

/-- Settles O18: a successful encode command leaves in every element an entry of `N2C`, which is one byte. -/
theorem encodeWritesLowerCaseOnly : Obligations.EncodeWritesLowerCaseOnly := by
  intro i s t k hop hb he hok hk
  obtain ⟨n, hn⟩ := encWant_eq_n2c (sampleJob i s) s.mem k
  obtain ⟨helem, hupper⟩ :=
    (written_of_enc_ok hop hb he hok).elem_of_lt hk (hn.trans_lt (n2c_lt n))
  rw [sampleJob_instr, esDst_enc hop] at hupper
  rw [hn] at helem
  exact ⟨by rw [dstElem, helem]; exact n2c_lowerCase n, hupper⟩

/-- Settles O1: the six rows of the table by evaluation; a byte is determined by the command it decodes to. -/
theorem commandBytesOfTheTable : Obligations.CommandBytesOfTheTable := by
  refine ⟨?_, ?_, ?_, ?_, ?_, ?_, fun c d i => decode_command_injective⟩ <;> decide

set_option maxRecDepth 10000 in
/-- The count of R84: 250 of the 256 bytes are illegal. -/
theorem illegal_bytes_count :
    ((List.range 256).filter fun n => (decodeTableWord 8 n).isNone).length = 250 := by
  decide

/-- Settles O2: the legal bytes are those whose word is well formed; an illegal write only stores and reports. -/
theorem legalBytesAndIllegalWrites : Obligations.LegalBytesAndIllegalWrites := by
  refine ⟨fun c => (exists_decode_eq_command_iff c).trans (wf_commandWord_iff c), illegal_bytes_count, ?_⟩
  intro c r s hc hb
  calc hostTurn (.wr .cmd c.toNat) s
      = writeCmd beginCommand (BitVec.ofNat 8 c.toNat) s := writeReg_cmd_of_ready hb _
    _ = writeCmd beginCommand c s := by rw [BitVec.ofNat_toNat, BitVec.setWidth_eq]
    _ = .next { s with cmd := c, status := .errIllegalCmd } := writeCmd_illegal hc _ s

end Sys2Proof.Machine
end

section
/-! SUPPORT. The Lookup Tables as inverses of each other (40_lookup_tables.md R105), the masks that step 3 of
the vector decode kernel sets on one lane (42_vector_decode.md R146 to R149), and the lanes of the block that
`VDEC_BLOCK` leaves in `X`. -/

namespace Sys2Proof.Machine

/-- Every nibble comes back from its character (R105). -/
theorem c2n_n2c (n : BitVec 4) : c2n (n2c n) = n.setWidth 8 := by
  revert n; decide

set_option maxRecDepth 10000 in
/-- Every character comes back from its nibble, an upper-case letter in lower case (R105). -/
theorem n2c_c2n (i : Byte) (h : c2n i ≠ INVALID) :
    n2c ((c2n i).setWidth 4) = if 0x41 ≤ i ∧ i ≤ 0x46 then i + 0x20 else i := by
  revert i; decide

/-- Lane `k` of a register made lane by lane from another. -/
theorem laneAt_map {x : List Byte} {k : Nat} (h : k < x.length) (f : Byte → Byte) :
    laneAt (x.map f) k = f x[k] := by
  simp [laneAt, List.getD, h]

/-- The union of three masks covers a lane exactly when one of them does (R149). -/
theorem maskLane_or_eq_ones_iff (a b c : Bool) :
    (if a then 0xFF else 0x00) ||| (if b then 0xFF else 0x00) ||| (if c then 0xFF else 0x00) = (0xFF : Byte) ↔
      (if a then 0xFF else 0x00) = (0xFF : Byte) ∨ (if b then 0xFF else 0x00) = (0xFF : Byte) ∨
        (if c then 0xFF else 0x00) = (0xFF : Byte) := by
  revert a b c; decide

/-- What step 3 leaves in lane `k` (R147). -/
theorem laneAt_classify_x {v : VecRegs} {k : Nat} (h : k < v.x.length) :
    laneAt (classify v).x k = laneClass v.x[k] := by
  rw [classify_x, laneAt_map h]

/-- One of the three masks of step 3 covers lane `k` exactly when their union does (R149). -/
theorem laneAt_classify_masks_iff {v : VecRegs} {k : Nat} (h : k < v.x.length) :
    (laneAt (classify v).m0 k = 0xFF ∨ laneAt (classify v).m1 k = 0xFF ∨ laneAt (classify v).m2 k = 0xFF) ↔
      laneUnion v.x[k] = 0xFF := by
  simp only [classify, subIfMask, subIfLanes, List.map_map, laneAt_map h]
  exact (maskLane_or_eq_ones_iff _ _ _).symm

/-- A valid lane holds its nibble after step 3 (R150). -/
theorem laneAt_classify_x_of_valid {v : VecRegs} {k : Nat} (h : k < v.x.length) (hv : c2n v.x[k] ≠ INVALID) :
    laneAt (classify v).x k = c2n v.x[k] :=
  (laneAt_classify_x h).trans ((lane_cases _).1 hv)

/-- The repack reads `W` alone, so the range test before it leaves its result as it is (R144, R145). -/
theorem repack_x_of_bank {t : Tier} {cw : CharWidth} {rd : Nat → Nat} {i0 : Nat} {v : VecRegs}
    (hw : v.w = bank t cw fun k => BitVec.ofNat 32 (rd (i0 + k))) :
    (repack v).x = lanes (blockChars t) fun k => BitVec.ofNat 8 (rd (i0 + k)) := by
  simp only [repack, hw, flatten_bank, map_lanes, BitVec.setWidth_ofNat_of_le (show 8 ≤ 32 by decide)]

/-- A block that passes both tests holds in `X` what step 3 makes of its low bytes (R140). -/
theorem vdecRegs_x_of_pass {t : Tier} {cw : CharWidth} {rd : Nat → Nat} {i0 : Nat} {v : VecRegs}
    (hp : (vdecRegs t cw rd i0 v).2 = true) :
    (vdecRegs t cw rd i0 v).1.x = lanes (blockChars t) fun k => laneClass (BitVec.ofNat 8 (rd (i0 + k))) := by
  have hw : (if 1 < cw.bytes then rangeMask cw (loadText t cw rd i0 v) else loadText t cw rd i0 v).w =
      bank t cw fun k => BitVec.ofNat 32 (rd (i0 + k)) := by
    split <;> rfl
  simp only [vdecRegs] at hp ⊢
  generalize (if 1 < cw.bytes then rangeMask cw (loadText t cw rd i0 v) else loadText t cw rd i0 v) = v2
    at hw hp ⊢
  by_cases hrange : (decide (1 < cw.bytes) && rangeFails v2) = true
  · rw [if_pos hrange] at hp
    exact absurd hp Bool.false_ne_true
  · rw [if_neg hrange] at hp ⊢
    by_cases hcov : covered (classify (repack v2)) = true
    · simp only [if_pos hcov, gather, classify_x, repack_x_of_bank hw, map_lanes]
    · rw [if_neg hcov] at hp
      exact absurd hp Bool.false_ne_true

end Sys2Proof.Machine
end

section
/-! CLAIMS. The statements of 40_lookup_tables.md about the two tables and their lane-parallel forms. -/

namespace Sys2Proof.Machine

/-- Settles O5: the case analysis of R150 on one lane, lifted to the register and, behind the range test, to
the block. -/
theorem parallelLookupComputesTable : Obligations.ParallelLookupComputesTable := by
  refine ⟨fun v k h => ⟨laneAt_classify_x_of_valid h, ?_⟩, covered_classify, fun t cw rd i0 v hrd => ?_⟩
  · rw [laneAt_classify_masks_iff h]
    exact (lane_cases _).2.1
  · have hpass := (vdecRegs_spec t cw rd i0 v hrd).1
    refine ⟨hpass, fun hp k hk => ?_⟩
    have hvalid := hpass.mp hp k hk
    have htable := (lookup_ne_invalid hvalid).1
    calc laneAt (vdecRegs t cw rd i0 v).1.x k
        = laneClass (BitVec.ofNat 8 (rd (i0 + k))) := by rw [vdecRegs_x_of_pass hp, laneAt_lanes hk]
      _ = c2n (BitVec.ofNat 8 (rd (i0 + k))) := (lane_cases _).1 (htable ▸ hvalid)
      _ = lookup cw (rd (i0 + k)) := htable.symm

/-- Settles O6: every lane of the bank goes through the compare-and-add of R176 on its own. -/
theorem parallelNibbleToCharacter : Obligations.ParallelNibbleToCharacter := by
  refine ⟨fun t cw v f hz k hk => ?_, fun n => ?_⟩
  · simp only [toAscii, overNine, hz, bankAt_bank _ _ _ hk]
    exact ascii_lane cw (f k)
  · simp only [n2c, BitVec.add_comm]

/-- Settles O4: each table read at the other's entries. -/
theorem lookupTablesInverse : Obligations.LookupTablesInverse :=
  ⟨c2n_n2c, n2c_c2n⟩

end Sys2Proof.Machine
end

section
/-! SUPPORT. The condition of CapacityError as a bound (41_scalar_engine.md R121, R127), and that what a number
of byte pairs takes from the source and from the destination leaves the bound as it was. -/

namespace Sys2Proof.Machine

theorem capacityShort_dec_eq_false_iff {n cap : Nat} : capacityShort .dec n cap = false ↔ n ≤ cap * 2 := by
  simp [capacityShort]

theorem capacityShort_enc_eq_false_iff {n cap : Nat} : capacityShort .enc n cap = false ↔ n * 2 ≤ cap := by
  simp [capacityShort]

/-- `m` decoded bytes take two characters each from the source and one element each from the destination. -/
theorem capacityShort_dec_sub {n cap : Nat} (h : capacityShort .dec n cap = false) (m : Nat) :
    capacityShort .dec (n - 2 * m) (cap - m) = false := by
  rw [capacityShort_dec_eq_false_iff] at h ⊢
  omega

/-- `m` encoded bytes of the source take one element each from it and two each from the destination. -/
theorem capacityShort_enc_sub {n cap : Nat} (h : capacityShort .enc n cap = false) (m : Nat) :
    capacityShort .enc (n - m) (cap - 2 * m) = false := by
  rw [capacityShort_enc_eq_false_iff] at h ⊢
  omega

/-- `k` blocks hold twice as many characters as bytes (R12). -/
theorem mul_blockChars (k : Nat) (t : Tier) : k * blockChars t = 2 * (k * blockBytes t) := by
  rw [blockChars_eq, Nat.mul_left_comm]

end Sys2Proof.Machine
end

section
/-! CLAIMS. The statement of 41_scalar_engine.md about the capacity check on the tail. -/

namespace Sys2Proof.Machine

/-- Settles O31: `k` blocks are `k * blockBytes t` bytes of two characters each, for either operation. -/
theorem tailCapacityCheckCannotFail : Obligations.TailCapacityCheckCannotFail := by
  intro t n cap k
  rw [mul_blockChars]
  exact ⟨fun h _ => capacityShort_dec_sub h _, fun h _ => capacityShort_enc_sub h _⟩

end Sys2Proof.Machine
end

section
/-! SUPPORT. The pair loop of `SDEC` from any source and destination offset (41_scalar_engine.md R122 to R125),
and the decode block step as one function (42_vector_decode.md R154). -/

namespace Sys2Proof.Machine

/-- `a + b` units in a row are `a` units and then `b` units. -/
theorem repeatUnits_add (f : Nat → State → Flow) (a b p : Nat) (s : State) :
    repeatUnits f (a + b) p s = (repeatUnits f a p s).andThen (repeatUnits f b (p + a)) := by
  induction a generalizing p s with
  | zero => simp [repeatUnits, Flow.andThen]
  | succ a ih =>
    rw [Nat.succ_add, repeatUnits, repeatUnits]
    cases f p s with
    | go s1 => simp only [Flow.andThen, ih, Nat.succ_add_eq_add_succ]
    | stop s1 => rfl

theorem dstWriteAll_append (j : Job) (m : Memory) (k : Nat) (vs ws : List Nat) :
    dstWriteAll j m k (vs ++ ws) = dstWriteAll j (dstWriteAll j m k vs) (k + vs.length) ws := by
  induction vs generalizing m k with
  | nil => rfl
  | cons v vs ih =>
    rw [List.cons_append, dstWriteAll, dstWriteAll, ih, List.length_cons, Nat.add_right_comm, Nat.add_assoc]

/-- A store of elements inside the destination view changes no source element (R59). -/
theorem srcRead_dstWriteAll {j : Job} {k0 k : Nat} {vs : List Nat} (hd : j.viewsDisjoint = true)
    (hcap : k0 + vs.length ≤ j.cap) (hk : k < j.len) (m : Memory) :
    srcRead j (dstWriteAll j m k0 vs) k = srcRead j m k := by
  refine srcRead_of_outside hd (fun a ha => read_dstWriteAll j m k0 vs a ?_) hk
  have hstart : j.dst ≤ j.dstAddr k0 := Nat.le_add_right _ _
  have hend : j.dstAddr (k0 + vs.length) ≤ j.dstEnd := j.dstAddr_mono hcap
  omega

/-- `LOOKUP(cw, SrcRead(i0 + k))`: the `v_k` of R154. -/
def codeAt (j : Job) (m : Memory) (i0 k : Nat) : Byte := lookup j.instr.cw (srcRead j m (i0 + k))

/-- `(v_(2p) << 4) | v_(2p+1)` of R154: the byte of pair `p` of the characters from `i0` on. -/
def pairAt (j : Job) (m : Memory) (i0 p : Nat) : Nat :=
  ((codeAt j m i0 (2 * p) <<< 4) ||| codeAt j m i0 (2 * p + 1)).toNat

/-- `s` with the first `n` of those bytes in the destination elements from `o0` on. -/
def withPairs (j : Job) (i0 o0 n : Nat) (s : State) : State :=
  { s with mem := dstWriteAll j s.mem o0 ((List.range n).map (pairAt j s.mem i0)) }

theorem withPairs_succ_mem (j : Job) (i0 o0 n : Nat) (s : State) :
    (withPairs j i0 o0 (n + 1) s).mem =
      dstWrite j (withPairs j i0 o0 n s).mem (o0 + n) (pairAt j s.mem i0 n) := by
  simp [withPairs, List.range_succ, dstWriteAll_append, dstWriteAll]

/-- The pairs already written lie in the destination view, so the characters read as before (R59). -/
theorem codeAt_withPairs {j : Job} {i0 o0 n k : Nat} (hd : j.viewsDisjoint = true) (hcap : o0 + n ≤ j.cap)
    (hk : i0 + k < j.len) (s : State) : codeAt j (withPairs j i0 o0 n s).mem i0 k = codeAt j s.mem i0 k := by
  simp only [codeAt, withPairs]
  rw [srcRead_dstWriteAll hd (by simpa using hcap) hk]

/-- `sdecPair` by the two characters it looks up (R122, R123). -/
theorem sdecPair_eq_ite (j : Job) (i0 o0 p : Nat) (s : State) :
    sdecPair j i0 o0 p s =
      if codeAt j s.mem i0 (2 * p) = INVALID ∨ codeAt j s.mem i0 (2 * p + 1) = INVALID then
        .stop (raiseInvalidChar j s)
      else .go { s with mem := dstWrite j s.mem (o0 + p) (pairAt j s.mem i0 p) } := rfl

/-- The next pair, when both its characters are hex digits (R122). -/
theorem sdecPair_withPairs_valid {j : Job} {i0 o0 p : Nat} {s : State} (hd : j.viewsDisjoint = true)
    (hcap : o0 + p ≤ j.cap) (hlen : i0 + (2 * p + 1) < j.len) (hhi : codeAt j s.mem i0 (2 * p) ≠ INVALID)
    (hlo : codeAt j s.mem i0 (2 * p + 1) ≠ INVALID) :
    sdecPair j i0 o0 p (withPairs j i0 o0 p s) = .go (withPairs j i0 o0 (p + 1) s) := by
  have ehi := codeAt_withPairs hd hcap (show i0 + 2 * p < j.len by omega) s
  have elo := codeAt_withPairs hd hcap hlen s
  have epair : pairAt j (withPairs j i0 o0 p s).mem i0 p = pairAt j s.mem i0 p := by
    rw [pairAt, ehi, elo, pairAt]
  rw [sdecPair_eq_ite, ehi, elo, if_neg (not_or.mpr ⟨hhi, hlo⟩), epair, ← withPairs_succ_mem]
  rfl

/-- The next pair, when one of its characters is no hex digit (R123). -/
theorem sdecPair_withPairs_invalid {j : Job} {i0 o0 p : Nat} {s : State} (hd : j.viewsDisjoint = true)
    (hcap : o0 + p ≤ j.cap) (hlen : i0 + (2 * p + 1) < j.len)
    (hbad : codeAt j s.mem i0 (2 * p) = INVALID ∨ codeAt j s.mem i0 (2 * p + 1) = INVALID) :
    sdecPair j i0 o0 p (withPairs j i0 o0 p s) = .stop (raiseInvalidChar j (withPairs j i0 o0 p s)) := by
  rw [sdecPair_eq_ite, codeAt_withPairs hd hcap (by omega), codeAt_withPairs hd hcap hlen, if_pos hbad]

/-- `n` pairs of hex digits are all written (R125). -/
theorem sdecPairs_valid {j : Job} {i0 o0 n : Nat} {s : State} (hd : j.viewsDisjoint = true)
    (hlen : i0 + 2 * n ≤ j.len) (hcap : o0 + n ≤ j.cap) (hv : ∀ k < 2 * n, codeAt j s.mem i0 k ≠ INVALID) :
    repeatUnits (sdecPair j i0 o0) n 0 s = .go (withPairs j i0 o0 n s) := by
  induction n with
  | zero => rfl
  | succ n ih =>
    have hprev := ih (by omega) (by omega) fun k hk => hv k (by omega)
    have hnext := sdecPair_withPairs_valid hd (show o0 + n ≤ j.cap by omega) (by omega)
      (hv (2 * n) (by omega)) (hv (2 * n + 1) (by omega))
    rw [repeatUnits_add, hprev]
    simp only [repeatUnits, Flow.andThen, Nat.zero_add, hnext]

/-- The pair loop stops at the pair of the first bad character, with the pairs before it written (R123). -/
theorem sdecPairs_invalid {j : Job} {i0 o0 n e : Nat} {s : State} (hd : j.viewsDisjoint = true)
    (hlen : i0 + 2 * n ≤ j.len) (hcap : o0 + n ≤ j.cap) (he : e < 2 * n) (hbad : codeAt j s.mem i0 e = INVALID)
    (hv : ∀ k < e, codeAt j s.mem i0 k ≠ INVALID) :
    repeatUnits (sdecPair j i0 o0) n 0 s = .stop (raiseInvalidChar j (withPairs j i0 o0 (e / 2) s)) := by
  obtain ⟨r, rfl⟩ : ∃ r, n = e / 2 + (r + 1) := ⟨n - e / 2 - 1, by omega⟩
  have hbefore := sdecPairs_valid (n := e / 2) hd (by omega) (show o0 + e / 2 ≤ j.cap by omega)
    fun k hk => hv k (by omega)
  have hpair : codeAt j s.mem i0 (2 * (e / 2)) = INVALID ∨ codeAt j s.mem i0 (2 * (e / 2) + 1) = INVALID := by
    rcases (show 2 * (e / 2) = e ∨ 2 * (e / 2) + 1 = e by omega) with h | h
    · exact .inl (by rw [h, hbad])
    · exact .inr (by rw [h, hbad])
  have hstop := sdecPair_withPairs_invalid hd (show o0 + e / 2 ≤ j.cap by omega) (by omega) hpair
  rw [repeatUnits_add, hbefore]
  simp only [repeatUnits, Flow.andThen, Nat.zero_add, hstop]

/-- One block has room for its bytes, so `SDEC` on it is its pair loop (R120, R121). -/
theorem sdec_block (j : Job) (i0 o0 : Nat) (t : Tier) (s : State) :
    sdec j i0 (blockChars t) o0 (blockBytes t) s = repeatUnits (sdecPair j i0 o0) (blockBytes t) 0 s := by
  have hroom : capacityShort .dec (blockChars t) (blockBytes t) = false := by cases t <;> rfl
  rw [sdec, hroom]
  rfl

/-- The registers of the block step on the source elements of a decode command (R154). -/
theorem vdecRegs_srcRead {j : Job} (hop : j.instr.op = .dec) (i0 : Nat) (s : State) :
    ((vdecRegs s.params.tier j.instr.cw (srcRead j s.mem) i0 s.vec).2 = true ↔
      ∀ k < blockChars s.params.tier, codeAt j s.mem i0 k ≠ INVALID) ∧
    ((vdecRegs s.params.tier j.instr.cw (srcRead j s.mem) i0 s.vec).2 = true →
      (vdecRegs s.params.tier j.instr.cw (srcRead j s.mem) i0 s.vec).1.p.map BitVec.toNat =
        (List.range (blockBytes s.params.tier)).map (pairAt j s.mem i0)) := by
  have hunit : ∀ k, srcRead j s.mem k < 256 ^ j.instr.cw.bytes := esSrc_dec hop ▸ srcRead_lt j s.mem
  obtain ⟨hpass, hp⟩ := vdecRegs_spec s.params.tier j.instr.cw (srcRead j s.mem) i0 s.vec hunit
  refine ⟨hpass, fun h => ?_⟩
  rw [hp h, map_lanes]
  rfl

/-- A block with an invalid code unit writes nothing. -/
theorem vdecBlock_invalid {j : Job} (hop : j.instr.op = .dec) {i0 : Nat} {s : State}
    (hbad : ∃ k < blockChars s.params.tier, codeAt j s.mem i0 k = INVALID) (o0 : Nat) :
    ∃ r, vdecBlock j i0 o0 s = .stop (raiseInvalidChar j { s with vec := r }) := by
  obtain ⟨k, hk, hcode⟩ := hbad
  refine ⟨_, if_neg fun hpass => ?_⟩
  exact (vdecRegs_srcRead hop i0 s).1.mp hpass k hk hcode

/-- A block of hex digits writes its packed bytes. -/
theorem vdecBlock_valid {j : Job} (hop : j.instr.op = .dec) {i0 : Nat} {s : State}
    (hv : ∀ k < blockChars s.params.tier, codeAt j s.mem i0 k ≠ INVALID) (o0 : Nat) :
    ∃ r, vdecBlock j i0 o0 s = .go { withPairs j i0 o0 (blockBytes s.params.tier) s with vec := r } := by
  obtain ⟨hpass, hstored⟩ := vdecRegs_srcRead hop i0 s
  have hp := hpass.mpr hv
  refine ⟨(vdecRegs s.params.tier j.instr.cw (srcRead j s.mem) i0 s.vec).1, ?_⟩
  rw [withPairs, ← hstored hp]
  exact if_pos hp

end Sys2Proof.Machine
end

section
/-! CLAIMS. The statement of 42_vector_decode.md about the decode block step. -/

namespace Sys2Proof.Machine

/-- Settles O7: the block step tests the whole block before it stores; `SDEC` runs the same pairs one by one,
and its writes never reach the source view. -/
theorem decodeBlockAsOneFunction : Obligations.DecodeBlockAsOneFunction := by
  intro j i0 o0 s hop v bytes
  refine ⟨fun hbad => vdecBlock_invalid hop hbad o0, fun hv => vdecBlock_valid hop hv o0,
    fun hd hlen hcap => ⟨fun hv => ?_, fun e he hbad hv => ?_⟩⟩
  · rw [blockChars_eq] at hlen hv
    exact (sdec_block j i0 o0 _ s).trans (sdecPairs_valid hd hlen hcap hv)
  · rw [blockChars_eq] at hlen he
    have htake : bytes.take (e / 2) = (List.range (e / 2)).map (pairAt j s.mem i0) := by
      rw [← List.map_take, List.take_range, Nat.min_eq_left (by omega)]
      rfl
    rw [htake]
    exact (sdec_block j i0 o0 _ s).trans (sdecPairs_invalid hd hlen hcap he hbad hv)

end Sys2Proof.Machine
end

section
/-! SUPPORT. What a successful command leaves in its destination elements, in the terms that the claims use
(44_dispatcher_commands.md R200, R204), and how one command reads what another has written. -/

namespace Sys2Proof.Machine

/-- A ready decode command on valid text that has room ends `OK` with its bytes written (R200 (c)). -/
theorem exec_dec_writes {i : Instr} {s : State} (hop : i.op = .dec) (hr : Ready i s)
    (hroom : s.srcLen ≤ s.dstCap * 2) (hv : AllValid i s) :
    ∃ t, exec i s = .next t ∧ t.status = .ok ∧ RegsKept s t ∧
      Written (sampleJob i s) s.mem (pairByte i s) (s.srcLen / 2) t.mem := by
  obtain ⟨s', he, p⟩ := exec_dec_ok hop hr (Nat.not_lt.mpr hroom) hv
  exact ⟨_, he, rfl,
    ((regsKept_startCommand _ s).trans p.kept).trans (regsKept_endCommand _ s'), p.written⟩

/-- A ready encode command that has room ends `OK` with its characters written (R204). -/
theorem exec_enc_writes {i : Instr} {s : State} (hop : i.op = .enc) (hr : Ready i s)
    (hroom : 2 * s.srcLen ≤ s.dstCap) :
    ∃ t, exec i s = .next t ∧ t.status = .ok ∧ RegsKept s t ∧
      Written (sampleJob i s) s.mem (charAt i s) (2 * s.srcLen) t.mem := by
  obtain ⟨s', he, p⟩ := exec_enc_ok hop hr (show ¬ s.dstCap < s.srcLen * 2 by omega)
  exact ⟨_, he, rfl,
    ((regsKept_startCommand _ s).trans p.kept).trans (regsKept_endCommand _ s'), p.written⟩

theorem pairByte_lt (i : Instr) (s : State) (p : Nat) : pairByte i s p < 256 := BitVec.isLt _

theorem charAt_two_mul (i : Instr) (s : State) (p : Nat) :
    charAt i s (2 * p) = (n2c ((BitVec.ofNat 8 (srcElem i s p)).extractLsb' 4 4)).toNat := by
  simp [charAt]

theorem charAt_two_mul_add_one (i : Instr) (s : State) (p : Nat) :
    charAt i s (2 * p + 1) = (n2c ((BitVec.ofNat 8 (srcElem i s p)).extractLsb' 0 4)).toNat := by
  simp [charAt, Nat.mul_add_div]

theorem charAt_lt (i : Instr) (s : State) (k : Nat) : charAt i s k < 256 := by
  unfold charAt
  split
  · exact n2c_lt _
  · exact n2c_lt _

/-- A written destination element whose value fits a byte reads as that value. -/
theorem dstElem_of_written {i : Instr} {s : State} {m : Memory} {want : Nat → Nat} {n k : Nat}
    (h : Written (sampleJob i s) s.mem want n m) (hk : k < n) (hw : want k < 256) :
    dstElem i s m k = want k :=
  (h.elem_of_lt hk hw).1

/-- A decoded byte is one byte of memory (R53). -/
theorem dstElem_dec {i : Instr} (hop : i.op = .dec) (s : State) (m : Memory) (p : Nat) :
    dstElem i s m p = (m.read (s.dstBase + p)).toNat := by
  simp [dstElem, dstRead, Job.dstAddr, esDst_dec hop]

/-- A byte to encode is one byte of memory (R53). -/
theorem srcElem_enc {i : Instr} (hop : i.op = .enc) (s : State) (p : Nat) :
    srcElem i s p = (s.mem.read (s.srcBase + p)).toNat := by
  simp [srcElem, srcRead, Job.srcAddr, esSrc_enc hop]

/-- A command whose source view starts where another's destination view did reads the elements that the
other wrote, when both views have the same element size (R53). -/
theorem srcElem_eq_dstElem {i i' : Instr} {s s' : State} (hsize : esSrc i' = esDst i)
    (hbase : s'.srcBase = s.dstBase) (k : Nat) : srcElem i' s' k = dstElem i s s'.mem k := by
  simp [srcElem, dstElem, srcRead, dstRead, Job.srcAddr, Job.dstAddr, hsize, hbase]

theorem esSrc_dec_eq_esDst_enc (cw : CharWidth) : esSrc (instrOf .dec cw) = esDst (instrOf .enc cw) := by
  cases cw <;> rfl

theorem esSrc_enc_eq_esDst_dec (cw : CharWidth) : esSrc (instrOf .enc cw) = esDst (instrOf .dec cw) := by
  cases cw <;> rfl

@[simp] theorem instrOf_op (op : Op) (cw : CharWidth) : (instrOf op cw).op = op := by
  cases op <;> cases cw <;> rfl

@[simp] theorem instrOf_cw (op : Op) (cw : CharWidth) : (instrOf op cw).cw = cw := by
  cases op <;> cases cw <;> rfl

end Sys2Proof.Machine
end

section
/-! SUPPORT. `LOOKUP` and the characters of a byte (40_lookup_tables.md R102, R105): a character that `N2C`
gives is looked up to its nibble, a valid character comes back in lower case, and a byte is its two nibbles. -/

namespace Sys2Proof.Machine

theorem nibble_ne_invalid (n : BitVec 4) : n.setWidth 8 ≠ INVALID := by
  revert n; decide

/-- A code unit of a byte's size passes the range test (R102). -/
theorem lookup_of_lt (cw : CharWidth) {u : Nat} (hu : u < 256) : lookup cw u = c2n (BitVec.ofNat 8 u) :=
  if_neg (by omega)

theorem lookup_n2c (cw : CharWidth) (n : BitVec 4) : lookup cw (n2c n).toNat = n.setWidth 8 := by
  rw [lookup_of_lt cw (n2c_lt n), BitVec.ofNat_toNat, BitVec.setWidth_eq, c2n_n2c]

/-- A code unit above 0xFF is no hex digit (R102, the range test). -/
theorem lookup_wide {cw : CharWidth} {u : Nat} (hcw : 1 < cw.bytes) (hu : 0xFF < u) : lookup cw u = INVALID :=
  if_pos ⟨hcw, hu⟩

/-- The case of a letter does not matter to `LOOKUP`. -/
theorem lookup_lowerCode (cw : CharWidth) (u : Nat) : lookup cw (lowerCode u) = lookup cw u := by
  unfold lowerCode
  split
  · rename_i hletter
    obtain ⟨hA, hF⟩ := hletter
    rw [lookup_of_lt cw (by omega), lookup_of_lt cw (by omega)]
    interval_cases u <;> rfl
  · rfl

set_option maxRecDepth 10000 in
theorem toNat_n2c_c2n (x : Byte) (h : c2n x ≠ INVALID) :
    (n2c ((c2n x).setWidth 4)).toNat = lowerCode x.toNat := by
  revert x; decide

/-- Every valid character of a byte's size comes back from its nibble, a letter in lower case (R105). -/
theorem toNat_n2c_lookup {cw : CharWidth} {u : Nat} (hu : u < 256) (h : lookup cw u ≠ INVALID) :
    (n2c ((lookup cw u).setWidth 4)).toNat = lowerCode u := by
  have htable := (lookup_ne_invalid h).1
  rw [htable] at h ⊢
  rw [toNat_n2c_c2n _ h, BitVec.toNat_ofNat, Nat.mod_eq_of_lt hu]

set_option maxRecDepth 10000 in
/-- A byte is the pair of its nibbles. -/
theorem pack_nibbles (b : Byte) :
    ((b.extractLsb' 4 4).setWidth 8 <<< 4 ||| (b.extractLsb' 0 4).setWidth 8) = b := by
  revert b; decide

/-- The nibbles of a packed pair. -/
theorem nibbles_pack (hi lo : BitVec 4) :
    (hi.setWidth 8 <<< 4 ||| lo.setWidth 8).extractLsb' 4 4 = hi ∧
      (hi.setWidth 8 <<< 4 ||| lo.setWidth 8).extractLsb' 0 4 = lo := by
  revert hi lo; decide

/-- A valid character is looked up to a nibble (R103). -/
theorem setWidth_lookup {cw : CharWidth} {u : Nat} (h : lookup cw u ≠ INVALID) :
    ((lookup cw u).setWidth 4).setWidth 8 = lookup cw u := by
  apply BitVec.eq_of_toNat_eq
  have hlt := lookup_lt h
  rw [BitVec.toNat_setWidth, BitVec.toNat_setWidth]
  omega

end Sys2Proof.Machine
end

section
/-! SUPPORT. Text that was encoded, decoded again, and bytes that were decoded, encoded again
(44_dispatcher_commands.md R209, R210), on two commands of which the second reads what the first wrote. -/

namespace Sys2Proof.Machine

/-- A validated code unit that is a hex digit has a byte's size, at every width (R102). -/
theorem srcElem_lt_of_valid {i : Instr} {s : State} {k : Nat} (hop : i.op = .dec)
    (h : nibbleOf i s k ≠ INVALID) : srcElem i s k < 256 := by
  by_cases hcw : 1 < i.cw.bytes
  · have hle := (lookup_ne_invalid h).2 hcw
    omega
  · have hone : i.cw.bytes = 1 := by have := CharWidth.bytes_pos i.cw; omega
    have hlt := srcRead_lt (sampleJob i s) s.mem k
    rw [sampleJob_instr, esSrc_dec hop, hone] at hlt
    exact hlt

/-- What `LOOKUP` gives for the two characters of an encoded byte: its nibbles (R105). -/
theorem nibbleOf_of_charAt {i i' : Instr} {s s' : State} {p : Nat}
    (hhi : srcElem i' s' (2 * p) = charAt i s (2 * p))
    (hlo : srcElem i' s' (2 * p + 1) = charAt i s (2 * p + 1)) :
    nibbleOf i' s' (2 * p) = ((BitVec.ofNat 8 (srcElem i s p)).extractLsb' 4 4).setWidth 8 ∧
      nibbleOf i' s' (2 * p + 1) = ((BitVec.ofNat 8 (srcElem i s p)).extractLsb' 0 4).setWidth 8 := by
  rw [nibbleOf, nibbleOf, hhi, hlo, charAt_two_mul, charAt_two_mul_add_one, lookup_n2c, lookup_n2c]
  exact ⟨rfl, rfl⟩

/-- The characters of an encoded byte are valid and their pair is the byte (R209). -/
theorem pairByte_of_charAt {i i' : Instr} {s s' : State} {p : Nat}
    (hhi : srcElem i' s' (2 * p) = charAt i s (2 * p))
    (hlo : srcElem i' s' (2 * p + 1) = charAt i s (2 * p + 1)) :
    nibbleOf i' s' (2 * p) ≠ INVALID ∧ nibbleOf i' s' (2 * p + 1) ≠ INVALID ∧
      pairByte i' s' p = (BitVec.ofNat 8 (srcElem i s p)).toNat := by
  obtain ⟨ehi, elo⟩ := nibbleOf_of_charAt hhi hlo
  rw [pairByte, ehi, elo, pack_nibbles]
  exact ⟨nibble_ne_invalid _, nibble_ne_invalid _, rfl⟩

/-- `LOOKUP` gives a code unit and its lower-case form the same nibble (R210). -/
theorem nibbleOf_of_lowerCode {i : Instr} {s s' : State} {k : Nat}
    (h : srcElem i s' k = lowerCode (srcElem i s k)) : nibbleOf i s' k = nibbleOf i s k := by
  rw [nibbleOf, h, lookup_lowerCode, nibbleOf]

/-- The characters of a decoded byte are those it was decoded from, in lower case (R210). -/
theorem charAt_of_pairByte {i i' : Instr} {s s' : State} {p : Nat} (hop : i.op = .dec)
    (hsrc : srcElem i' s' p = pairByte i s p) (hhi : nibbleOf i s (2 * p) ≠ INVALID)
    (hlo : nibbleOf i s (2 * p + 1) ≠ INVALID) :
    charAt i' s' (2 * p) = lowerCode (srcElem i s (2 * p)) ∧
      charAt i' s' (2 * p + 1) = lowerCode (srcElem i s (2 * p + 1)) := by
  obtain ⟨ehi, elo⟩ := nibbles_pack ((nibbleOf i s (2 * p)).setWidth 4) ((nibbleOf i s (2 * p + 1)).setWidth 4)
  rw [nibbleOf, nibbleOf, setWidth_lookup hhi, setWidth_lookup hlo] at ehi elo
  rw [charAt_two_mul, charAt_two_mul_add_one, hsrc, pairByte, BitVec.ofNat_toNat, BitVec.setWidth_eq,
    nibbleOf, nibbleOf, ehi, elo]
  exact ⟨toNat_n2c_lookup (srcElem_lt_of_valid hop hhi) hhi,
    toNat_n2c_lookup (srcElem_lt_of_valid hop hlo) hlo⟩

end Sys2Proof.Machine
end

section
/-! SUPPORT. A decode command on a string and on the string without its unpaired last character
(41_scalar_engine.md R124, 44_dispatcher_commands.md R215): what the two have in common. -/

namespace Sys2Proof.Machine

theorem viewRefusal_eq_none_iff {p : Params} {j : Job} :
    viewRefusal p j = none ↔ j.viewsInside p = true ∧ j.viewsDisjoint = true := by
  cases hin : j.viewsInside p <;> cases hdis : j.viewsDisjoint <;> simp [viewRefusal, hin, hdis]

/-- `s` with the last character of the source view left out. -/
def dropLastChar (s : State) : State := { s with srcLen := s.srcLen - 1 }

theorem srcEnd_dropLastChar_le (i : Instr) (s : State) :
    (sampleJob i (dropLastChar s)).srcEnd ≤ (sampleJob i s).srcEnd :=
  (sampleJob i s).srcAddr_mono (Nat.sub_le s.srcLen 1)

/-- A shorter source view keeps R58 and R59. -/
theorem ready_dropLastChar {i : Instr} {s : State} (h : Ready i s) : Ready i (dropLastChar s) := by
  obtain ⟨hidle, hviews⟩ := h
  obtain ⟨hinside, hdisjoint⟩ := viewRefusal_eq_none_iff.mp hviews
  have hle := srcEnd_dropLastChar_le i s
  refine ⟨hidle, viewRefusal_eq_none_iff.mpr ⟨?_, (Job.viewsDisjoint_iff _).mpr fun a ha => ?_⟩⟩
  · simp only [Job.viewsInside, Bool.and_eq_true, decide_eq_true_eq] at hinside ⊢
    exact ⟨hle.trans hinside.1, hinside.2⟩
  · rw [Job.inSrc_iff] at ha
    refine (Job.viewsDisjoint_iff _).mp hdisjoint a ⟨?_, ha.2⟩
    exact (Job.inSrc_iff _ a).mpr ⟨ha.1.1, ha.1.2.trans_le hle⟩

/-- The pairs of a string of odd length are those of the string without its last character. -/
theorem pairs_dropLastChar {s : State} (hodd : s.srcLen % 2 = 1) :
    (dropLastChar s).srcLen / 2 = s.srcLen / 2 := by
  simp only [dropLastChar]
  omega

theorem allValid_dropLastChar_iff {i : Instr} {s : State} (hodd : s.srcLen % 2 = 1) :
    AllValid i (dropLastChar s) ↔ AllValid i s := by
  unfold AllValid
  rw [pairs_dropLastChar hodd]
  rfl

theorem firstInvalid_dropLastChar_iff {i : Instr} {s : State} {e : Nat} (hodd : s.srcLen % 2 = 1) :
    FirstInvalid i (dropLastChar s) e ↔ FirstInvalid i s e := by
  unfold FirstInvalid
  rw [pairs_dropLastChar hodd]
  rfl

/-- An unpaired last character fills no block, so it does not move the split of R195. -/
theorem wRef_pred_of_odd {n : Nat} (hodd : n % 2 = 1) (t : Tier) (e : Nat) : wRef t (n - 1) e = wRef t n e := by
  cases t with
  | generic => rfl
  | narrow => rw [wRef, wRef, show (n - 1) / 16 = n / 16 by omega]
  | wide => rw [wRef, wRef, show (n - 1) / 32 = n / 32 by omega]

/-- What InvalidCharacterError leaves of memory depends on memory, the destination view, `OUT_OFF` and the
draws only (R226, R228). -/
theorem read_raiseInvalidChar_congr {j j' : Job} {s s' : State} (hdst : j.dst = j'.dst) (hcap : j.cap = j'.cap)
    (hparams : s.params = s'.params) (hout : s.outOff = s'.outOff) (hdraws : s.draws = s'.draws)
    (hmem : ∀ a, s.mem.read a = s'.mem.read a) (a : Nat) :
    (raiseInvalidChar j s).mem.read a = (raiseInvalidChar j' s').mem.read a := by
  rw [raiseInvalidChar_mem, raiseInvalidChar_mem, hparams, hdst, hcap, hout, hdraws]
  cases s'.params.failOutput with
  | reference => exact hmem a
  | contract => simp only [read_memFree, hmem]

/-- Valid text of odd length decodes as without its last character. -/
theorem exec_dropLastChar_of_valid {i : Instr} {s : State} (hop : i.op = .dec) (hr : Ready i s)
    (hodd : s.srcLen % 2 = 1) (hroom : s.srcLen ≤ s.dstCap * 2) (hv : AllValid i s) :
    ∃ t u, exec i s = .next t ∧ exec i (dropLastChar s) = .next u ∧ t.status = u.status ∧
      ∀ a, t.mem.read a = u.mem.read a := by
  obtain ⟨t, het, htok, -, hwt⟩ := exec_dec_writes hop hr hroom hv
  obtain ⟨u, heu, huok, -, hwu⟩ := exec_dec_writes hop (ready_dropLastChar hr)
    ((Nat.sub_le _ _).trans hroom) ((allValid_dropLastChar_iff hodd).mpr hv)
  rw [pairs_dropLastChar hodd] at hwu
  exact ⟨t, u, het, heu, htok.trans huok.symm,
    Written.congr rfl rfl (fun _ => rfl) (fun _ _ => rfl) hwt hwu⟩

/-- Text of odd length with an invalid validated character fails as without its last character. -/
theorem exec_dropLastChar_of_invalid {i : Instr} {s : State} {e : Nat} (hop : i.op = .dec) (hr : Ready i s)
    (hodd : s.srcLen % 2 = 1) (hroom : s.srcLen ≤ s.dstCap * 2) (he : FirstInvalid i s e) :
    ∃ t u, exec i s = .next t ∧ exec i (dropLastChar s) = .next u ∧ t.status = u.status ∧
      ∀ a, t.mem.read a = u.mem.read a := by
  obtain ⟨s', het, pt, hot⟩ := exec_dec_bad hop hr (Nat.not_lt.mpr hroom) he
  obtain ⟨s'', heu, pu, hou⟩ := exec_dec_bad hop (ready_dropLastChar hr)
    (Nat.not_lt.mpr ((Nat.sub_le _ _).trans hroom)) ((firstInvalid_dropLastChar_iff hodd).mpr he)
  have hwu : Written (sampleJob i (dropLastChar s)) s.mem (pairByte i s)
      (wRef s.params.tier s.srcLen e) s''.mem := by
    rw [← wRef_pred_of_odd hodd]
    exact pu.written
  refine ⟨_, _, het, heu, by simp only [raiseInvalidChar_status],
    read_raiseInvalidChar_congr rfl rfl ?_ ?_ ?_ ?_⟩
  · exact pt.kept.1.trans pu.kept.1.symm
  · exact hot.trans hou.symm
  · exact pt.draws.trans pu.draws.symm
  · exact Written.congr rfl rfl (fun _ => rfl) (fun _ _ => rfl) pt.written hwu

/-- Every validated character is valid, or there is a first one that is not. -/
theorem allValid_or_firstInvalid (i : Instr) (s : State) : AllValid i s ∨ ∃ e, FirstInvalid i s e := by
  by_cases hv : AllValid i s
  · exact .inl hv
  · obtain ⟨e, hlt, hbad, hbefore⟩ := exists_first _ hv
    exact .inr ⟨e, hlt, not_not.mp hbad, hbefore⟩

/-- A ready decode command that has room and finds an invalid validated character ends `ERR_INVALID_CHAR`
(R223). -/
theorem exec_dec_invalid {i : Instr} {s : State} {k : Nat} (hop : i.op = .dec) (hr : Ready i s)
    (hroom : s.srcLen ≤ s.dstCap * 2) (hk : k < 2 * (s.srcLen / 2)) (hbad : nibbleOf i s k = INVALID) :
    ∃ t, exec i s = .next t ∧ t.status = .errInvalidChar := by
  rcases allValid_or_firstInvalid i s with hv | ⟨e, he⟩
  · exact absurd hbad (hv k hk)
  · obtain ⟨s', het, -, -⟩ := exec_dec_bad hop hr (Nat.not_lt.mpr hroom) he
    exact ⟨_, het, raiseInvalidChar_status _ _⟩

end Sys2Proof.Machine
end

section
/-! CLAIMS. The statements of 44_dispatcher_commands.md about what the commands compute. -/

namespace Sys2Proof.Machine

/-- Settles O10: the written elements are the characters of R129, each of them one byte. -/
theorem encodeCompletes : Obligations.EncodeCompletes := by
  intro i s hi hr
  have hop : i.op = .enc := by rcases hi with rfl | rfl | rfl <;> rfl
  by_cases hroom : 2 * s.srcLen ≤ s.dstCap
  · obtain ⟨t, he, hok, hkept, hw⟩ := exec_enc_writes hop hr hroom
    have helem : ∀ k < 2 * s.srcLen, dstElem i s t.mem k = charAt i s k :=
      fun k hk => dstElem_of_written hw hk (charAt_lt i s k)
    refine ⟨t, he, hkept, fun hshort => absurd hroom (Nat.not_le.mpr hshort),
      fun _ => ⟨hok, fun p hp => ⟨?_, ?_⟩, ?_⟩⟩
    · rw [helem _ (by omega), charAt_two_mul]
    · rw [helem _ (by omega), charAt_two_mul_add_one]
    · rw [← esDst_enc hop]
      exact hw.outside
  · have hshort : s.dstCap < s.srcLen * 2 := by omega
    exact ⟨_, exec_enc_short hop hr hshort,
      (regsKept_startCommand _ s).trans (regsKept_endCommand _ _), fun _ => ⟨rfl, rfl⟩,
      fun h => absurd h hroom⟩

/-- Settles O16: the decode command reads the characters that the encode command wrote, and the pair of a
byte's characters is the byte. -/
theorem encodeThenDecodeGivesBytesBack : Obligations.EncodeThenDecodeGivesBytesBack := by
  intro cw s t dst hr hcap he hr'
  obtain ⟨t', he', hok, -, hw⟩ := exec_enc_writes (instrOf_op .enc cw) hr hcap.ge
  obtain rfl : t = t' := Host.Outcome.next.inj (he.symm.trans he')
  set s' : State := { t with srcBase := s.dstBase, srcLen := 2 * s.srcLen, dstBase := dst, dstCap := s.srcLen }
  have htext : ∀ k < 2 * s.srcLen, srcElem (instrOf .dec cw) s' k = charAt (instrOf .enc cw) s k :=
    fun k hk => (srcElem_eq_dstElem (esSrc_dec_eq_esDst_enc cw) rfl k).trans
      (dstElem_of_written hw hk (charAt_lt _ s k))
  have hback := fun p (hp : p < s.srcLen) =>
    pairByte_of_charAt (htext (2 * p) (by omega)) (htext (2 * p + 1) (by omega))
  have hlen : s'.srcLen / 2 = s.srcLen := Nat.mul_div_cancel_left _ Nat.two_pos
  have hv : AllValid (instrOf .dec cw) s' := by
    intro k hk
    rw [hlen] at hk
    obtain ⟨p, rfl | rfl⟩ := Nat.even_or_odd' k
    · exact (hback p (by omega)).1
    · exact (hback p (by omega)).2.1
  obtain ⟨u, heu, huok, -, hwu⟩ := exec_dec_writes (instrOf_op .dec cw) hr' (Nat.mul_comm _ _).le hv
  refine ⟨hok, u, heu, huok, fun p hp => BitVec.eq_of_toNat_eq ?_⟩
  calc (u.mem.read (dst + p)).toNat
      = dstElem (instrOf .dec cw) s' u.mem p := (dstElem_dec (instrOf_op .dec cw) s' u.mem p).symm
    _ = pairByte (instrOf .dec cw) s' p := dstElem_of_written hwu (hlen.symm ▸ hp) (pairByte_lt _ s' p)
    _ = (BitVec.ofNat 8 (srcElem (instrOf .enc cw) s p)).toNat := (hback p hp).2.2
    _ = (s.mem.read (s.srcBase + p)).toNat := by
      rw [srcElem_enc (instrOf_op .enc cw), BitVec.ofNat_toNat, BitVec.setWidth_eq]

/-- Settles O17: `LOOKUP` does not see the case of a letter, and the characters of a decoded byte are those
it was decoded from, in lower case. -/
theorem caseNormalisation : Obligations.CaseNormalisation := by
  refine ⟨fun i s m hop hr hroom hv hlower => ?_, fun cw s t dst cap hr hroom hv he hr' hcap => ?_⟩
  · set s' : State := { s with mem := m }
    have hnib : ∀ k < s.srcLen, nibbleOf i s' k = nibbleOf i s k :=
      fun k hk => nibbleOf_of_lowerCode (hlower k hk)
    have hv' : AllValid i s' := fun k hk => by
      rw [hnib k (hk.trans_le (Nat.mul_div_le s.srcLen 2))]
      exact hv k hk
    obtain ⟨t, het, htok, -, hwt⟩ := exec_dec_writes hop hr hroom hv
    obtain ⟨u, heu, huok, -, hwu⟩ := exec_dec_writes (s := s') hop hr hroom hv'
    refine ⟨t, u, het, heu, htok, huok, fun p hp => ?_⟩
    calc dstElem i s t.mem p
        = pairByte i s p := dstElem_of_written hwt hp (pairByte_lt i s p)
      _ = pairByte i s' p := by rw [pairByte, pairByte, hnib _ (by omega), hnib _ (by omega)]
      _ = dstElem i s u.mem p := (dstElem_of_written hwu hp (pairByte_lt i s' p)).symm
  · obtain ⟨t', he', -, -, hw⟩ := exec_dec_writes (instrOf_op .dec cw) hr hroom hv
    obtain rfl : t = t' := Host.Outcome.next.inj (he.symm.trans he')
    set s' : State := { t with srcBase := s.dstBase, srcLen := s.srcLen / 2, dstBase := dst, dstCap := cap }
    obtain ⟨u, heu, huok, -, hwu⟩ := exec_enc_writes (instrOf_op .enc cw) hr' hcap
    have hchars := fun p (hp : p < s.srcLen / 2) =>
      charAt_of_pairByte (instrOf_op .dec cw)
        ((srcElem_eq_dstElem (s' := s') (esSrc_enc_eq_esDst_dec cw) rfl p).trans
          (dstElem_of_written hw hp (pairByte_lt _ s p)))
        (hv (2 * p) (by omega)) (hv (2 * p + 1) (by omega))
    refine ⟨u, heu, huok, fun k hk => (dstElem_of_written hwu hk (charAt_lt _ s' k)).trans ?_⟩
    obtain ⟨p, rfl | rfl⟩ := Nat.even_or_odd' k
    · exact (hchars p (by omega)).1
    · exact (hchars p (by omega)).2

/-- Settles O19: the range test of `LOOKUP` makes the code unit an invalid character. -/
theorem wideCodeUnitsAreRejected : Obligations.WideCodeUnitsAreRejected := by
  intro i s k hi hr hroom hk hwide
  have hop : i.op = .dec := by rcases hi with rfl | rfl <;> rfl
  have hcw : 1 < i.cw.bytes := by rcases hi with rfl | rfl <;> decide
  exact exec_dec_invalid hop hr hroom hk (lookup_wide hcw hwide)

/-- Settles O20: the unpaired last character is in no pair and in no block; only the capacity check counts
it. -/
theorem oddLengthDecodesAsTruncated : Obligations.OddLengthDecodesAsTruncated := by
  intro i s hop hr hodd
  refine ⟨fun hshort => ⟨_, exec_dec_short hop hr hshort, rfl⟩, fun hroom => ?_⟩
  rcases allValid_or_firstInvalid i s with hv | ⟨e, he⟩
  · exact exec_dropLastChar_of_valid hop hr hodd hroom hv
  · exact exec_dropLastChar_of_invalid hop hr hodd hroom he

end Sys2Proof.Machine
end

section
/-! SUPPORT. The host's turn on a byte that is no command, in both forms of the write (30_encoding.md R92,
60_exceptions.md R225). -/

namespace Sys2Proof.Machine

theorem step_of_queue {s : State} {a : HostAct} {rest : List HostAct} (h : s.queue = a :: rest) :
    step s = hostTurn a { s with queue := rest } := by
  simp [step, h]

theorem callCmd_of_ready {s : State} (h : s.isBusy = false) (b : Byte) : callCmd b s = writeCmd exec b s := by
  simp [callCmd, h]

/-- The bare write of a byte carries that byte (R20). -/
theorem writeReg_cmd_toNat_of_ready {s : State} (h : s.isBusy = false) (b : Byte) :
    writeReg .cmd b.toNat s = writeCmd beginCommand b s := by
  rw [writeReg_cmd_of_ready h, BitVec.ofNat_toNat, BitVec.setWidth_eq]

/-- A byte that is no command is rejected by name (R84). -/
theorem exists_decode_eq_illegal {b : Byte} (h : ∀ i, decode b ≠ .command i) : ∃ r, decode b = .illegal r := by
  cases hd : decode b with
  | command i => exact absurd hd (h i)
  | illegal r => exact ⟨r, rfl⟩

end Sys2Proof.Machine
end

section
/-! SUPPORT. The two errors of a command in the terms that the claims use (60_exceptions.md R222, R227,
R228): the capacity check comes first and touches nothing; InvalidCharacterError leaves `W_ref` bytes, of
which the contract keeps the first `W_guar`. -/

namespace Sys2Proof.Machine

/-- A command that starts and at once ends with CapacityError changes `STATUS` and hidden state only. -/
theorem exec_capacityError {i : Instr} {s : State}
    (he : exec i s = .next (endCommand .errCapacity (startCommand (sampleJob i s) s))) :
    ∃ t, exec i s = .next t ∧ t.status = .errCapacity ∧ t.mem = s.mem ∧ RegsKept s t :=
  ⟨_, he, rfl, rfl, (regsKept_startCommand _ s).trans (regsKept_endCommand _ _)⟩

/-- Of the endings of a command only the two capacity checks leave `ERR_CAPACITY`. -/
theorem Ending.short_of_errCapacity {i : Instr} {s t : State} (h : Ending i s t)
    (ht : t.status = .errCapacity) :
    (i.op = .dec ∧ s.dstCap * 2 < s.srcLen) ∨ (i.op = .enc ∧ s.dstCap < s.srcLen * 2) := by
  cases h with
  | decShort hop hshort => exact .inl ⟨hop, hshort⟩
  | encShort hop hshort => exact .inr ⟨hop, hshort⟩
  | decOk _ _ _ _ _ => simp at ht
  | encOk _ _ _ _ => simp at ht
  | decBad _ _ _ _ _ _ _ => simp at ht

/-- What a failing decode command leaves: the datapath has written `W_ref` bytes (R227), and under the
contract the bytes from `W_guar` to `DST_CAP` are then drawn freely (R228). -/
theorem exec_dec_fails {i : Instr} {s : State} {e : Nat} (hop : i.op = .dec) (hr : Ready i s)
    (hroom : s.srcLen ≤ s.dstCap * 2) (he : FirstInvalid i s e) :
    ∃ t m, exec i s = .next t ∧ t.status = .errInvalidChar ∧ RegsKept s t ∧
      Written (sampleJob i s) s.mem (pairByte i s) (wRef s.params.tier s.srcLen e) m ∧
      (s.params.failOutput = .reference → t.mem = m) ∧
      (s.params.failOutput = .contract →
        t.mem = memFree m (s.dstBase + wGuar s.params.tier e) s.draws (s.dstCap - wGuar s.params.tier e)) := by
  obtain ⟨s', hexec, p, hout⟩ := exec_dec_bad hop hr (Nat.not_lt.mpr hroom) he
  have hparams : s'.params = s.params := p.kept.1
  have hdraws : s'.draws = s.draws := p.draws
  refine ⟨_, s'.mem, hexec, raiseInvalidChar_status _ s',
    ((regsKept_startCommand _ s).trans p.kept).trans (regsKept_raiseInvalidChar _ s'), p.written,
    fun hfo => ?_, fun hfo => ?_⟩
  · rw [raiseInvalidChar_mem, hparams, hfo]
  · rw [raiseInvalidChar_mem, hparams, hfo, hout, hdraws, sampleJob_dst, sampleJob_cap]

theorem dstAddr_dec {i : Instr} (hop : i.op = .dec) (s : State) (k : Nat) :
    (sampleJob i s).dstAddr k = s.dstBase + k := by
  simp [Job.dstAddr, esDst_dec hop]

/-- The contract keeps no byte that the reference does not write (R228). -/
theorem wGuar_le_wRef (t : Tier) (n e : Nat) : wGuar t e ≤ wRef t n e := by
  cases t with
  | generic => exact Nat.zero_le _
  | narrow => rw [wGuar, wRef]; split <;> omega
  | wide => rw [wGuar, wRef]; split <;> omega

end Sys2Proof.Machine
end

section
/-! CLAIMS. The statements of 60_exceptions.md about what each error leaves. -/

namespace Sys2Proof.Machine

/-- Settles O32: both forms of the write come down to `writeCmd`, which stores and reports the byte. -/
theorem illegalByteIsReported : Obligations.IllegalByteIsReported := by
  intro s b rest hb hno hq
  obtain ⟨r, hill⟩ := exists_decode_eq_illegal hno
  have hb' : ({ s with queue := rest } : State).isBusy = false := hb
  refine ⟨?_, rfl⟩
  rcases hq with hq | hq
  · calc step s
        = callCmd b { s with queue := rest } := step_of_queue hq
      _ = writeCmd exec b { s with queue := rest } := callCmd_of_ready hb' b
      _ = .next { s with cmd := b, status := .errIllegalCmd, queue := rest } := writeCmd_illegal hill _ _
  · calc step s
        = writeReg .cmd b.toNat { s with queue := rest } := step_of_queue hq
      _ = writeCmd beginCommand b { s with queue := rest } := writeReg_cmd_toNat_of_ready hb' b
      _ = .next { s with cmd := b, status := .errIllegalCmd, queue := rest } := writeCmd_illegal hill _ _

/-- Settles O11: the capacity check is the first thing a started command does, and no other ending leaves
`ERR_CAPACITY`. -/
theorem capacityErrorTouchesNoMemory : Obligations.CapacityErrorTouchesNoMemory := by
  intro i s hr
  refine ⟨fun hop hshort => exec_capacityError (exec_dec_short hop hr hshort),
    fun hop hshort => exec_capacityError (exec_enc_short hop hr hshort), fun t he ht => ?_⟩
  obtain ⟨-, hend⟩ := exec_ending hr.1 he
  exact hend.short_of_errCapacity ht

/-- Settles O13: under `reference` memory stays as the datapath left it, with `W_ref` bytes written. -/
theorem referenceOutputAfterInvalidCharacter : Obligations.ReferenceOutputAfterInvalidCharacter := by
  intro i s e hop hr hroom hfo he
  obtain ⟨t, m, hexec, hst, hkept, hw, href, -⟩ := exec_dec_fails hop hr hroom he
  obtain rfl : t.mem = m := href hfo
  refine ⟨t, hexec, hst, fun p hp => dstElem_of_written hw hp (pairByte_lt i s p), ?_, hkept⟩
  rw [← dstAddr_dec hop]
  exact hw.outside

/-- Settles O14: the freely drawn bytes are `d[W_guar .. DST_CAP)`; below them the datapath's bytes stay,
since `W_guar ≤ W_ref`, and outside the view it wrote nothing, since `W_ref ≤ DST_CAP`. -/
theorem contractOutputAfterInvalidCharacter : Obligations.ContractOutputAfterInvalidCharacter := by
  refine ⟨fun i s e hop hr hroom hfo he => ?_, rfl, fun t n e _ => wGuar_le_wRef t n e⟩
  obtain ⟨t, m, hexec, hst, hkept, hw, -, hcon⟩ := exec_dec_fails hop hr hroom he
  have hguar := wGuar_le_wRef s.params.tier s.srcLen e
  have href := wRef_le s.params.tier s.srcLen e he.1
  refine ⟨t, hexec, hst, fun p hp => ?_, fun d hd => ?_, fun a ha => ?_, hkept⟩
  · calc dstElem i s t.mem p
        = dstElem i s m p := by
          rw [dstElem_dec hop, dstElem_dec hop, hcon hfo, read_memFree, if_neg (by omega)]
      _ = pairByte i s p := dstElem_of_written hw (hp.trans_le hguar) (pairByte_lt i s p)
  · rw [hcon hfo, read_memFree, if_pos (by omega), Nat.add_sub_cancel_left]
  · calc t.mem.read a
        = m.read a := by rw [hcon hfo, read_memFree, if_neg (by omega)]
      _ = s.mem.read a := hw.outside a (by rw [dstAddr_dec hop, sampleJob_dst]; omega)

end Sys2Proof.Machine
end

section
/-! SUPPORT. The work of a command and its one-step-at-a-time run (70_reset_and_hazards.md R263): the block loop,
the scalar loop and the final status as one sequence of steps, and `exec` as the same work. -/

namespace Sys2Proof.Machine

theorem Flow.andThen_eq_go {x : Flow} {f : State → Flow} {t : State} (h : x.andThen f = .go t) :
    ∃ s, x = .go s ∧ f s = .go t := by
  cases x with
  | go s => exact ⟨s, rfl, h⟩
  | stop s => cases h

theorem Flow.andThen_eq_stop {x : Flow} {f : State → Flow} {t : State} (h : x.andThen f = .stop t) :
    x = .stop t ∨ ∃ s, x = .go s ∧ f s = .stop t := by
  cases x with
  | go s => exact .inr ⟨s, rfl, h⟩
  | stop s => exact .inl h

/-- The blocks and scalar units of a command over `n` elements (R194, R196, R202, R203). -/
def workUnits (op : Op) (t : Tier) (n : Nat) : Nat := fullBlocks op t n + tailUnits op t n

theorem commandSteps_eq (i : Instr) (t : Tier) (n : Nat) :
    commandSteps i t n = 1 + (workUnits i.op t n + 1) := by
  simp only [commandSteps, workUnits, Nat.add_assoc]

/-- The running command right after its capacity check, all its work ahead of it. -/
def startWork (j : Job) (s : State) : State :=
  (Flow.go s).continueIn j (.work (fullBlocks j.instr.op s.params.tier j.len) 0
    (tailUnits j.instr.op s.params.tier j.len))

/-- The first step of a command is its capacity check. -/
theorem reaches_check (j : Job) (s : State) : Reaches 1 (startCommand j s) (tick j (startCommand j s)) :=
  Reaches.step (startCommand_status j s)

/-- The capacity check of a running command that has too little room (R222). -/
theorem tick_of_short {j : Job} (hp : j.phase = .check) (hc : capacityShort j.instr.op j.len j.cap = true)
    (s : State) : tick j s = endCommand .errCapacity s := by
  simp [tick, hp, hc]

/-- The capacity check of a running command that has room for its output. -/
theorem tick_of_room {j : Job} (hp : j.phase = .check) (hc : capacityShort j.instr.op j.len j.cap = false)
    (s : State) : tick j s = startWork j s := by
  simp [tick, hp, hc, startWork]

/-- Work that meets no error takes one step for each block and each scalar unit. -/
theorem workFlow_go_reaches {j : Job} {s s' : State} (h : workFlow j s = .go s') :
    ∃ p, Reaches (workUnits j.instr.op s.params.tier j.len) (startWork j s)
      ((Flow.go s').continueIn j (.work 0 p 0)) := by
  obtain ⟨s1, hblocks, hscalars⟩ := Flow.andThen_eq_go h
  have blocks := blocks_reach j (fullBlocks j.instr.op s.params.tier j.len) 0
    (tailUnits j.instr.op s.params.tier j.len) 0 s
  have scalars := scalars_reach j (tailUnits j.instr.op s.params.tier j.len) 0 s1
  rw [hblocks] at blocks
  rw [hscalars] at scalars
  exact ⟨_, blocks.trans scalars⟩

/-- Work that an error ends takes no more steps than there are blocks and scalar units. -/
theorem workFlow_stop_reaches {j : Job} {s s' : State} (h : workFlow j s = .stop s') :
    ∃ k ≤ workUnits j.instr.op s.params.tier j.len, Reaches k (startWork j s) s' := by
  have blocks := blocks_reach j (fullBlocks j.instr.op s.params.tier j.len) 0
    (tailUnits j.instr.op s.params.tier j.len) 0 s
  rcases Flow.andThen_eq_stop h with hblocks | ⟨s1, hblocks, hscalars⟩
  · rw [hblocks] at blocks
    obtain ⟨k, hk, hreach⟩ := blocks
    exact ⟨k, hk.trans (Nat.le_add_right _ _), hreach⟩
  · have scalars := scalars_reach j (tailUnits j.instr.op s.params.tier j.len) 0 s1
    rw [hblocks] at blocks
    rw [hscalars] at scalars
    obtain ⟨k, hk, hreach⟩ := scalars
    exact ⟨_, Nat.add_le_add_left hk _, blocks.trans hreach⟩

/-- Work that an error ends has met an invalid character (R223). -/
theorem workFlow_stop_status {j : Job} {s s' : State} (h : workFlow j s = .stop s') :
    s'.status = .errInvalidChar := by
  rcases Flow.andThen_eq_stop h with hblocks | ⟨s1, -, hscalars⟩
  · exact repeat_stop (fun _ _ _ => blockUnit_stop) _ hblocks
  · exact repeat_stop (fun _ _ _ => scalarUnit_stop) _ hscalars

/-- The last step of a command that met no error: the final status, whatever `STATUS` was before it. -/
theorem reaches_finish (j : Job) (p : Nat) (s : State) :
    Reaches 1 ((Flow.go s).continueIn j (.work 0 p 0)) (finish s) :=
  Reaches.step (j := { j with phase := .work 0 p 0 }) rfl

/-- From the end of the capacity check on, the steps lead to the closing state of the work. -/
theorem workFlow_close_reaches (j : Job) (s : State) :
    ∃ k ≤ workUnits j.instr.op s.params.tier j.len + 1,
      Reaches k (startWork j s) (workFlow j s).close ∧
      ((workFlow j s).close.status = .ok → k = workUnits j.instr.op s.params.tier j.len + 1) := by
  cases h : workFlow j s with
  | go s' =>
    obtain ⟨p, hreach⟩ := workFlow_go_reaches h
    exact ⟨_, Nat.le_refl _, hreach.trans (reaches_finish j p s'), fun _ => rfl⟩
  | stop s' =>
    obtain ⟨k, hk, hreach⟩ := workFlow_stop_reaches h
    have hstatus : (Flow.stop s').close.status = .errInvalidChar := workFlow_stop_status h
    exact ⟨k, hk.trans (Nat.le_succ _), hreach, fun hok => by rw [hstatus] at hok; cases hok⟩

/-- The whole command without room: CapacityError at once (R222), for both operations. -/
theorem exec_of_short {i : Instr} {s : State} (hr : Ready i s)
    (hc : capacityShort i.op s.srcLen s.dstCap = true) :
    exec i s = .next (endCommand .errCapacity (startCommand (sampleJob i s) s)) := by
  rcases op_cases i with hop | hop <;> rw [hop] at hc
  · exact exec_dec_short hop hr (of_decide_eq_true hc)
  · exact exec_enc_short hop hr (of_decide_eq_true hc)

/-- The whole command with room: its units of work, for both operations (R190). -/
theorem exec_of_room {i : Instr} {s : State} (hr : Ready i s)
    (hc : capacityShort i.op s.srcLen s.dstCap = false) :
    exec i s = .next (workFlow (sampleJob i s) (startCommand (sampleJob i s) s)).close := by
  rcases op_cases i with hop | hop <;> rw [hop] at hc
  · rw [exec_dec hop, issue_ready hr, dec_units hop rfl rfl hc]
  · rw [exec_enc hop, issue_ready hr, enc_units hop rfl rfl hc]

end Sys2Proof.Machine
end

section
/-! CLAIMS. The statement of 70_reset_and_hazards.md about the two grains of a command. -/

namespace Sys2Proof.Machine

/-- Settles O35: both grains make the capacity check and then the same units of work, one step each. -/
theorem stepByStepEqualsWholeCommand : Obligations.StepByStepEqualsWholeCommand := by
  intro i s t hr hexec
  have hcheck := reaches_check (sampleJob i s) s
  rw [commandSteps_eq]
  cases hc : capacityShort i.op s.srcLen s.dstCap with
  | true =>
    rw [exec_of_short hr hc] at hexec
    cases hexec
    rw [tick_of_short rfl hc] at hcheck
    obtain ⟨hend, hbusy⟩ := hcheck
    exact ⟨1, Nat.le_add_right 1 _, hend, hbusy, fun hok => by rw [endCommand_status] at hok; cases hok⟩
  | false =>
    rw [exec_of_room hr hc] at hexec
    cases hexec
    rw [tick_of_room rfl hc] at hcheck
    obtain ⟨k, hk, hwork, hok⟩ := workFlow_close_reaches (sampleJob i s) (startCommand (sampleJob i s) s)
    obtain ⟨hend, hbusy⟩ := hcheck.trans hwork
    exact ⟨1 + k, Nat.add_le_add_left hk 1, hend, hbusy, fun h => congrArg (1 + ·) (hok h)⟩

end Sys2Proof.Machine
end

section
/-! SUPPORT. A change of caller memory that stays inside the destination view of a command (20_memory.md R60):
the stores of a command, the freely drawn bytes, and all that an ended command has done. -/

namespace Sys2Proof.Machine

/-- `m'` comes from `m` by stores inside the destination view of `j`. -/
structure ChangesDst (j : Job) (m m' : Memory) : Prop where
  outside : ∀ a, j.inDst a = false → m'.read a = m.read a
  wf : m.wf = true → m'.wf = true
  listed : ∀ e ∈ m', e.1 < j.dstEnd ∨ e ∈ m

theorem ChangesDst.refl (j : Job) (m : Memory) : ChangesDst j m m :=
  ⟨fun _ _ => rfl, id, fun _ => .inr⟩

theorem ChangesDst.trans {j : Job} {m m' m'' : Memory} (h : ChangesDst j m m') (h' : ChangesDst j m' m'') :
    ChangesDst j m m'' :=
  ⟨fun a ha => (h'.outside a ha).trans (h.outside a ha), fun hm => h'.wf (h.wf hm),
    fun e he => (h'.listed e he).elim .inl (h.listed e)⟩

theorem Job.inDst_eq_false_iff (j : Job) (a : Nat) : j.inDst a = false ↔ a < j.dst ∨ j.dstEnd ≤ a := by
  rw [← Bool.not_eq_true, Job.inDst_iff]
  omega

/-- No byte of the source view changes when the views are disjoint (R59). -/
theorem ChangesDst.source {j : Job} {m m' : Memory} (h : ChangesDst j m m') (hd : j.viewsDisjoint = true)
    {a : Nat} (ha : j.inSrc a = true) : m'.read a = m.read a := by
  apply h.outside
  rw [← Bool.not_eq_true]
  exact fun hdst => (Job.viewsDisjoint_iff j).mp hd a ⟨ha, hdst⟩

/-- A store of elements below `DST_CAP` stays inside the view (R52). -/
theorem changesDst_dstWriteAll {j : Job} {k : Nat} {vs : List Nat} (h : k + vs.length ≤ j.cap) (m : Memory) :
    ChangesDst j m (dstWriteAll j m k vs) := by
  have hstart : j.dst ≤ j.dstAddr k := Nat.le_add_right _ _
  have hend : j.dstAddr (k + vs.length) ≤ j.dstEnd := j.dstAddr_mono h
  refine ⟨fun a ha => read_dstWriteAll j m k vs a ?_, wf_dstWriteAll j m k vs, fun e he => ?_⟩
  · rw [Job.inDst_eq_false_iff] at ha
    omega
  · exact (mem_dstWriteAll j m k vs e he).imp_left fun hlt => by omega

/-- Freely drawn bytes inside the view (R228, R251). -/
theorem changesDst_memFree {j : Job} {a n : Nat} (h : ∀ d < n, j.inDst (a + d) = true) (m : Memory) (d : Nat) :
    ChangesDst j m (memFree m a d n) := by
  have hin : ∀ c, a ≤ c ∧ c < a + n → j.inDst c = true := fun c hc => by
    have := h (c - a) (by omega)
    rwa [Nat.add_sub_cancel' hc.1] at this
  refine ⟨fun c hc => ?_, wf_memFree m a d n, fun e he => ?_⟩
  · rw [read_memFree, if_neg fun h' => by simp [hin c h'] at hc]
  · exact (mem_memFree m a d n e he).imp_left fun h' => ((Job.inDst_iff j _).mp (hin _ h')).2

/-- What a running command has written lies inside the view as long as it keeps to `DST_CAP`. -/
theorem Prog.changesDst {j : Job} {s0 s : State} {want : Nat → Nat} {n : Nat} (h : Prog j s0 want n s)
    (hn : n ≤ j.cap) : ChangesDst j s0.mem s.mem := by
  have hend : j.dstAddr n ≤ j.dstEnd := j.dstAddr_mono hn
  refine ⟨fun a ha => h.written.outside a ?_, h.wf, fun e he => ?_⟩
  · rw [Job.inDst_eq_false_iff] at ha
    omega
  · exact (h.listed e he).imp_left fun hlt => by omega

/-- InvalidCharacterError changes nothing outside the destination view (R226, R228). -/
theorem changesDst_raiseInvalidChar {j : Job} (hop : j.instr.op = .dec) (s : State) :
    ChangesDst j s.mem (raiseInvalidChar j s).mem := by
  rw [raiseInvalidChar_mem]
  cases s.params.failOutput with
  | reference => exact .refl j s.mem
  | contract =>
    refine changesDst_memFree (fun d hd => ?_) s.mem s.draws
    rw [Job.inDst_iff, Job.dstEnd, Job.dstAddr, esDst_dec hop]
    omega

/-- An ended command has changed nothing outside its destination view (R60). -/
theorem Ending.changesDst {i : Instr} {s t : State} (h : Ending i s t) :
    ChangesDst (sampleJob i s) s.mem t.mem := by
  cases h with
  | decShort _ _ => exact .refl _ _
  | encShort _ _ => exact .refl _ _
  | decOk s' _ hroom _ p => exact p.changesDst (by rw [sampleJob_cap]; omega)
  | encOk s' _ hroom p => exact p.changesDst (by rw [sampleJob_cap]; omega)
  | decBad e s' hop hroom he p _ =>
    have hle := wRef_le s.params.tier s.srcLen e he.1
    exact (p.changesDst (by rw [sampleJob_cap]; omega)).trans (changesDst_raiseInvalidChar hop s')

/-- An ended command has changed no host-visible register but `STATUS` (R190). -/
theorem Ending.regsKept {i : Instr} {s t : State} (h : Ending i s t) : RegsKept s t := by
  cases h with
  | decShort _ _ => exact (regsKept_startCommand _ s).trans (regsKept_endCommand _ _)
  | encShort _ _ => exact (regsKept_startCommand _ s).trans (regsKept_endCommand _ _)
  | decOk s' _ _ _ p => exact ((regsKept_startCommand _ s).trans p.kept).trans (regsKept_endCommand _ s')
  | encOk s' _ _ p => exact ((regsKept_startCommand _ s).trans p.kept).trans (regsKept_endCommand _ s')
  | decBad _ s' _ _ _ p _ =>
    exact ((regsKept_startCommand _ s).trans p.kept).trans (regsKept_raiseInvalidChar _ s')

theorem isBusy_of_status {s : State} {st : Status} (h : s.status = st) : s.isBusy = st.isBusy := by
  rw [State.isBusy, h]

/-- An ended command leaves the unit ready for the next one (R208). -/
theorem Ending.not_busy {i : Instr} {s t : State} (h : Ending i s t) : t.isBusy = false := by
  cases h with
  | decShort _ _ => rfl
  | encShort _ _ => rfl
  | decOk _ _ _ _ _ => rfl
  | encOk _ _ _ _ => rfl
  | decBad _ s' _ _ _ _ _ => exact isBusy_of_status (raiseInvalidChar_status _ s')

/-- The register frame of `exec`, `BUSY` or not (R27, R190). -/
theorem exec_regsKept {i : Instr} {s t : State} (he : exec i s = .next t) : RegsKept s t := by
  cases hb : s.isBusy with
  | true =>
    obtain rfl : s = t := Host.Outcome.next.inj ((exec_busy i hb).symm.trans he)
    exact .refl s
  | false => exact (exec_ending hb he).2.regsKept

end Sys2Proof.Machine
end

section
/-! SUPPORT. What one step of the unit keeps (44_dispatcher_commands.md R190, 20_memory.md R60), and what one act
of the host can lead to: the inversion of `hostTurn` and of `step`. -/

namespace Sys2Proof.Machine

theorem TickOf.regsKept {j : Job} {s t : State} (h : TickOf j s t) : RegsKept s t := by
  cases h with
  | short _ _ => exact regsKept_endCommand _ s
  | start _ _ => exact .refl s
  | blockBad _ _ _ v _ _ => exact regsKept_raiseInvalidChar j { s with vec := v }
  | block _ _ _ _ _ _ _ => exact .refl s
  | scalarBad _ _ _ _ => exact regsKept_raiseInvalidChar j s
  | scalar _ _ _ _ _ => exact .refl s
  | done _ _ => exact regsKept_endCommand _ s

/-- A step of a command that stands where its operands say stores inside the destination view only. -/
theorem TickOf.changesDst {j : Job} {s t : State} (h : TickOf j s t)
    (hp : phaseOk s.params.tier j s.inOff s.outOff) : ChangesDst j s.mem t.mem := by
  cases h with
  | short _ _ => exact .refl j s.mem
  | start _ _ => exact .refl j s.mem
  | blockBad _ _ _ v _ hop => exact changesDst_raiseInvalidChar hop { s with vec := v }
  | block _ _ _ _ _ hphase hlen =>
    exact changesDst_dstWriteAll (by rw [hlen]; exact phaseOk_blockRoom hphase hp) s.mem
  | scalarBad _ _ _ hop => exact changesDst_raiseInvalidChar hop s
  | scalar _ _ _ hphase hlen =>
    exact changesDst_dstWriteAll (by rw [hlen]; exact phaseOk_scalarRoom hphase hp) s.mem
  | done _ _ => exact .refl j s.mem

theorem regsKept_unitTurn (s : State) : RegsKept s (unitTurn s) := by
  cases hs : s.status with
  | busy j => rw [unitTurn_busy hs]; exact (tick_cases j s).regsKept
  | _ => rw [unitTurn_idle (isBusy_of_status hs)]; exact .refl s

/-- What a turn of the host, or of the unit, can leave. -/
inductive TurnOf (s : State) : State → Prop where
  /-- The unit takes its own step; a `wait` that is not over stays in the queue. -/
  | unit (q : List HostAct) : TurnOf s (unitTurn { s with queue := q })
  /-- The command form: the whole command, from the state with its byte in `CMD`. -/
  | exec (i : Instr) (b : Byte) (t : State) : s.isBusy = false →
      Machine.exec i { s with cmd := b } = .next t → TurnOf s t
  /-- The bare write of a command. -/
  | start (i : Instr) (b : Byte) : Ready i s →
      TurnOf s (startCommand (sampleJob i s) { s with cmd := b })
  | illegal (b : Byte) : TurnOf s { s with cmd := b, status := .errIllegalCmd }
  /-- A write of an operand register while the unit is not `BUSY`. -/
  | operand (x n y c : Nat) : s.isBusy = false →
      (x = s.srcBase ∨ x < 2 ^ s.params.addrBits) → (n = s.srcLen ∨ n < 2 ^ s.params.lenBits) →
      (y = s.dstBase ∨ y < 2 ^ s.params.addrBits) → (c = s.dstCap ∨ c < 2 ^ s.params.lenBits) →
      TurnOf s { s with srcBase := x, srcLen := n, dstBase := y, dstCap := c }
  | store (a : Nat) (b : Byte) : a < 2 ^ s.params.addrBits → TurnOf s { s with mem := s.mem.write a b }
  /-- Only the host's own side changes, or nothing does. -/
  | host (q : List HostAct) (d : Option Nat) : TurnOf s { s with queue := q, rdData := d }
  | reset : TurnOf s (applyReset s)

theorem fitReg_lt (p : Params) (r : Reg) (v : Nat) : fitReg p r v < 2 ^ r.width p :=
  Nat.mod_lt _ (Nat.two_pow_pos _)

/-- A write of `CMD` answers a next state by storing an illegal byte, or by what `run` answers. -/
theorem writeCmd_next {run : Instr → State → Host.Outcome State Fault Refusal} {b : Byte} {s t : State}
    (h : writeCmd run b s = .next t) :
    t = { s with cmd := b, status := .errIllegalCmd } ∨ ∃ i, run i { s with cmd := b } = .next t := by
  cases hd : decode b with
  | command i => exact .inr ⟨i, by simpa [writeCmd, hd] using h⟩
  | illegal r => exact .inl (Host.Outcome.next.inj ((writeCmd_illegal hd run s).symm.trans h)).symm

theorem beginCommand_of_ready {i : Instr} {s : State} (h : Ready i s) :
    beginCommand i s = .next (startCommand (sampleJob i s) s) := by
  simp [beginCommand, h.2]

theorem beginCommand_refused {i : Instr} {s : State} {r : Refusal}
    (h : viewRefusal s.params (sampleJob i s) = some r) : beginCommand i s = .refused r := by
  simp [beginCommand, h]

theorem beginCommand_next {i : Instr} {s t : State} (hb : s.isBusy = false)
    (h : beginCommand i s = .next t) : Ready i s ∧ t = startCommand (sampleJob i s) s := by
  cases hv : viewRefusal s.params (sampleJob i s) with
  | some r => rw [beginCommand_refused hv] at h; cases h
  | none =>
    have hr : Ready i s := ⟨hb, hv⟩
    exact ⟨hr, (Host.Outcome.next.inj ((beginCommand_of_ready hr).symm.trans h)).symm⟩

theorem writeReg_busy {s : State} (h : s.isBusy = true) (r : Reg) (v : Nat) : writeReg r v s = .next s := by
  simp [writeReg, h]

theorem turnOf_writeReg {r : Reg} {v : Nat} {s t : State} (h : writeReg r v s = .next t) : TurnOf s t := by
  cases hb : s.isBusy with
  | true =>
    rw [writeReg_busy hb] at h
    cases h
    exact .host s.queue s.rdData
  | false =>
    have hfit := fitReg_lt s.params r v
    cases r with
    | cmd =>
      rw [writeReg_cmd_of_ready hb] at h
      rcases writeCmd_next h with rfl | ⟨i, hi⟩
      · exact .illegal _
      · obtain ⟨hr, rfl⟩ := beginCommand_next (s := { s with cmd := BitVec.ofNat 8 v }) hb hi
        exact .start i _ hr
    | status => simp only [writeReg, hb] at h; cases h; exact .host s.queue s.rdData
    | srcBase =>
      simp only [writeReg, hb] at h; cases h
      exact .operand _ _ _ _ hb (.inr hfit) (.inl rfl) (.inl rfl) (.inl rfl)
    | srcLen =>
      simp only [writeReg, hb] at h; cases h
      exact .operand _ _ _ _ hb (.inl rfl) (.inr hfit) (.inl rfl) (.inl rfl)
    | dstBase =>
      simp only [writeReg, hb] at h; cases h
      exact .operand _ _ _ _ hb (.inl rfl) (.inl rfl) (.inr hfit) (.inl rfl)
    | dstCap =>
      simp only [writeReg, hb] at h; cases h
      exact .operand _ _ _ _ hb (.inl rfl) (.inl rfl) (.inl rfl) (.inr hfit)

theorem turnOf_callCmd {b : Byte} {s t : State} (h : callCmd b s = .next t) : TurnOf s t := by
  cases hb : s.isBusy with
  | true =>
    simp only [callCmd, hb] at h; cases h
    exact .host _ s.rdData
  | false =>
    rw [callCmd_of_ready hb] at h
    rcases writeCmd_next h with rfl | ⟨i, hi⟩
    · exact .illegal b
    · exact .exec i b t hb hi

theorem turnOf_hostStore {a : Nat} {b : Byte} {s t : State} (h : hostStore a b s = .next t) :
    TurnOf s t := by
  unfold hostStore at h
  split at h
  · rename_i ha
    split at h <;> cases h
    exact .store a b ha
  · cases h

theorem turnOf_hostLoad {a : Nat} {s t : State} (h : hostLoad a s = .next t) : TurnOf s t := by
  unfold hostLoad at h
  split at h
  · split at h <;> cases h
    exact .host s.queue _
  · cases h

theorem turnOf_hostTurn {a : HostAct} {s t : State} (h : hostTurn a s = .next t) : TurnOf s t := by
  cases a with
  | call b => exact turnOf_callCmd h
  | wr r v => exact turnOf_writeReg h
  | rd r => cases h; exact .host s.queue _
  | store a b => exact turnOf_hostStore h
  | load a => exact turnOf_hostLoad h
  | idle => cases h; exact .unit s.queue
  | wait =>
    simp only [hostTurn] at h
    split at h <;> cases h
    · exact .unit _
    · exact .host s.queue s.rdData
  | reset => cases h; exact .reset

/-- A step is a turn from the state in which the host's act has left the queue. -/
theorem turnOf_step {s t : State} (h : step s = .next t) : ∃ q, TurnOf { s with queue := q } t := by
  cases hq : s.queue with
  | nil =>
    simp only [step, hq] at h; cases h
    exact ⟨s.queue, .unit s.queue⟩
  | cons a rest =>
    rw [step_of_queue hq] at h
    exact ⟨rest, turnOf_hostTurn h⟩

end Sys2Proof.Machine
end

section
/-! SUPPORT. The invariant (20_memory.md R50, 10_state.md R20, R27, R30) under each kind of change that a turn
makes. -/

namespace Sys2Proof.Machine

theorem jobOk_of_not_busy {s : State} (h : s.isBusy = false) : jobOk s := by
  unfold jobOk
  cases hs : s.status with
  | busy j => cases (isBusy_of_status hs).symm.trans h
  | _ => trivial

theorem jobOk_busy {s : State} {j : Job} (h : s.status = .busy j) :
    jobOk s ↔ j.src = s.srcBase ∧ j.len = s.srcLen ∧ j.dst = s.dstBase ∧ j.cap = s.dstCap ∧
      viewRefusal s.params j = none ∧ phaseOk s.params.tier j s.inOff s.outOff := by
  simp only [jobOk, h]

/-- A command whose registers are unchanged keeps the invariant when its memory is in order and the running
command, if any, stands where it should. -/
theorem Inv.of_regsKept {s t : State} (h : Inv s) (hk : RegsKept s t) (hwf : t.mem.wf = true)
    (hin : ∀ c ∈ t.mem, c.1 < 2 ^ s.params.addrBits) (hjob : jobOk t) : Inv t := by
  obtain ⟨hp, -, hsb, hsl, hdb, hdc, -, -⟩ := hk
  obtain ⟨-, -, fsb, fsl, fdb, fdc, -⟩ := h
  exact ⟨hwf, hp ▸ hin, by rwa [hp, hsb], by rwa [hp, hsl], by rwa [hp, hdb], by rwa [hp, hdc], hjob⟩

/-- Stores inside a destination view that ends inside memory keep memory in order. -/
theorem Inv.of_changesDst {s t : State} {j : Job} (h : Inv s) (hk : RegsKept s t)
    (hv : viewRefusal s.params j = none) (hm : ChangesDst j s.mem t.mem) (hjob : jobOk t) : Inv t := by
  have hend := (viewRefusal_none hv).2.1
  exact h.of_regsKept hk (hm.wf h.memWf)
    (fun c hc => (hm.listed c hc).elim (fun hlt => hlt.trans_le hend) (h.memInside c)) hjob

/-- The place a running command stands at, and the operands it runs on, after one of its steps. -/
theorem TickOf.jobOk {j : Job} {s t : State} (h : TickOf j s t) (hs : s.status = .busy j)
    (hj : Machine.jobOk s) : Machine.jobOk t := by
  obtain ⟨hsrc, hlen, hdst, hcap, hv, hp⟩ := (jobOk_busy hs).mp hj
  cases h with
  | short _ _ => exact jobOk_of_not_busy rfl
  | start hphase hc =>
    have h0 : s.inOff = 0 ∧ s.outOff = 0 := by simpa only [phaseOk, hphase] using hp
    refine (jobOk_busy (j := { j with
      phase := .work (fullBlocks j.instr.op s.params.tier j.len) 0 (tailUnits j.instr.op s.params.tier j.len) })
      rfl).mpr ⟨hsrc, hlen, hdst, hcap, hv, ?_⟩
    simp only [h0]
    exact phaseOk_start hc
  | blockBad _ _ _ v _ _ => exact jobOk_of_not_busy (isBusy_of_status (raiseInvalidChar_status _ _))
  | block b p u _ _ hphase _ =>
    exact (jobOk_busy (j := { j with phase := .work b p u }) rfl).mpr
      ⟨hsrc, hlen, hdst, hcap, hv, phaseOk_block hphase hp⟩
  | scalarBad _ _ _ _ => exact jobOk_of_not_busy (isBusy_of_status (raiseInvalidChar_status _ _))
  | scalar p u _ hphase _ =>
    exact (jobOk_busy (j := { j with phase := .work 0 (p + 1) u }) rfl).mpr
      ⟨hsrc, hlen, hdst, hcap, hv, phaseOk_scalar hphase hp⟩
  | done _ _ => exact jobOk_of_not_busy rfl

theorem Inv.unitTurn {s : State} (h : Inv s) : Inv (unitTurn s) := by
  cases hs : s.status with
  | busy j =>
    have htick := tick_cases j s
    obtain ⟨-, -, -, -, hv, hp⟩ := (jobOk_busy hs).mp h.job
    rw [unitTurn_busy hs]
    exact h.of_changesDst htick.regsKept hv (htick.changesDst hp) (htick.jobOk hs h.job)
  | _ => rwa [unitTurn_idle (isBusy_of_status hs)]

theorem Inv.exec {i : Instr} {s t : State} (h : Inv s) (hb : s.isBusy = false)
    (he : exec i s = .next t) : Inv t := by
  obtain ⟨hr, hend⟩ := exec_ending hb he
  exact h.of_changesDst hend.regsKept hr.2 hend.changesDst (jobOk_of_not_busy hend.not_busy)

/-- A started command stands at its capacity check, with both offsets 0 (R27, R30). -/
theorem jobOk_startCommand {i : Instr} {s : State} (h : Ready i s) :
    jobOk (startCommand (sampleJob i s) s) :=
  (jobOk_busy (startCommand_status _ s)).mpr ⟨rfl, rfl, rfl, rfl, h.2, rfl, rfl⟩

theorem Inv.startCommand {i : Instr} {s : State} (h : Inv s) (hr : Ready i s) :
    Inv (startCommand (sampleJob i s) s) :=
  h.of_regsKept (regsKept_startCommand _ s) h.memWf h.memInside (jobOk_startCommand hr)

/-- The byte in `CMD` and the host's own side play no part in the invariant. -/
theorem Inv.setHost {s : State} (h : Inv s) (b : Byte) (q : List HostAct) (d : Option Nat) :
    Inv { s with cmd := b, queue := q, rdData := d } :=
  ⟨h.memWf, h.memInside, h.srcBaseFits, h.srcLenFits, h.dstBaseFits, h.dstCapFits, h.job⟩

theorem Inv.store {s : State} (h : Inv s) {a : Nat} (ha : a < 2 ^ s.params.addrBits) (b : Byte) :
    Inv { s with mem := s.mem.write a b } :=
  h.of_regsKept ⟨rfl, rfl, rfl, rfl, rfl, rfl, rfl, rfl⟩ (Memory.wf_write s.mem a b h.memWf)
    (fun c hc => (Memory.mem_write s.mem a b c hc).elim (fun e => e ▸ ha) (h.memInside c)) h.job

/-- Reset abandons a running command inside its destination view (R251). -/
theorem changesDst_resetMemory_busy {s : State} {j : Job} (hs : s.status = .busy j) :
    ChangesDst j s.mem (resetMemory s).mem := by
  cases hf : s.params.failOutput with
  | reference => simpa only [resetMemory, hs, hf] using ChangesDst.refl j s.mem
  | contract =>
    simp only [resetMemory, hs, hf]
    exact changesDst_memFree (fun d hd => (Job.inDst_iff j _).mpr (by omega)) s.mem s.draws

theorem resetMemory_of_not_busy {s : State} (h : s.isBusy = false) : resetMemory s = s := by
  cases hs : s.status with
  | busy j => cases (isBusy_of_status hs).symm.trans h
  | _ => simp only [resetMemory, hs]

theorem applyReset_mem (s : State) : (applyReset s).mem = (resetMemory s).mem := rfl

theorem inv_resetOf (p : Params) : Inv (State.resetOf p) :=
  ⟨rfl, fun _ hc => absurd hc List.not_mem_nil, Nat.two_pow_pos _, Nat.two_pow_pos _, Nat.two_pow_pos _,
    Nat.two_pow_pos _, trivial⟩

/-- Memory after reset is in order. -/
theorem Inv.resetMemory {s : State} (h : Inv s) :
    (resetMemory s).mem.wf = true ∧ ∀ c ∈ (resetMemory s).mem, c.1 < 2 ^ s.params.addrBits := by
  cases hs : s.status with
  | busy j =>
    obtain ⟨-, -, -, -, hv, -⟩ := (jobOk_busy hs).mp h.job
    have hm := changesDst_resetMemory_busy hs
    exact ⟨hm.wf h.memWf, fun c hc => (hm.listed c hc).elim
      (fun hlt => hlt.trans_le (viewRefusal_none hv).2.1) (h.memInside c)⟩
  | _ =>
    rw [resetMemory_of_not_busy (isBusy_of_status hs)]
    exact ⟨h.memWf, h.memInside⟩

theorem Inv.applyReset {s : State} (h : Inv s) : Inv (applyReset s) := by
  obtain ⟨hwf, hin⟩ := h.resetMemory
  have h0 := inv_resetOf s.params
  exact ⟨hwf, hin, h0.srcBaseFits, h0.srcLenFits, h0.dstBaseFits, h0.dstCapFits, trivial⟩

theorem Inv.turnOf {s t : State} (h : Inv s) (ht : TurnOf s t) : Inv t := by
  cases ht with
  | unit q => exact (h.setHost s.cmd q s.rdData).unitTurn
  | exec i b t hb he => exact (h.setHost b s.queue s.rdData).exec hb he
  | start i b hr => exact (h.setHost b s.queue s.rdData).startCommand hr
  | illegal b => exact { h with job := trivial }
  | operand x n y c hb hx hn hy hc =>
    exact ⟨h.memWf, h.memInside, hx.elim (fun e => e ▸ h.srcBaseFits) id,
      hn.elim (fun e => e ▸ h.srcLenFits) id, hy.elim (fun e => e ▸ h.dstBaseFits) id,
      hc.elim (fun e => e ▸ h.dstCapFits) id, jobOk_of_not_busy hb⟩
  | store a b ha => exact h.store ha b
  | host q d => exact h.setHost s.cmd q d
  | reset => exact h.applyReset

end Sys2Proof.Machine
end

section
/-! CLAIMS. The statements about the invariant (20_memory.md section 1, 10_state.md sections 1, 2 and 7). -/

namespace Sys2Proof.Machine

/-- Settles O39: by the cases of a turn; a command, whole or by steps, stores inside its destination view only,
which ends inside memory. -/
theorem stepKeepsInvariant : Obligations.StepKeepsInvariant := by
  intro s t h hstep
  obtain ⟨q, hturn⟩ := turnOf_step hstep
  exact (h.setHost s.cmd q s.rdData).turnOf hturn

/-- Settles O40: reset leaves empty memory, registers that hold 0 and no running command. -/
theorem resetMeetsInvariant : Obligations.ResetMeetsInvariant :=
  ⟨inv_resetOf, inv_resetOf _⟩

end Sys2Proof.Machine
end

section
/-! SUPPORT. How a command ends, as one function of what it reads (60_exceptions.md R222, R223,
44_dispatcher_commands.md R208), and what a successful one has written. -/

namespace Sys2Proof.Machine

/-- The `STATUS` a command ends with: the capacity check first, then the validated characters of a decode. -/
def verdict (i : Instr) (s : State) : Status :=
  if capacityShort i.op s.srcLen s.dstCap then .errCapacity
  else if i.op = .dec ∧ ∃ k < 2 * (s.srcLen / 2), nibbleOf i s k = INVALID then .errInvalidChar
  else .ok

/-- The value a successful command writes to destination element `k` (41_scalar_engine.md R122, R128). -/
def outWant (i : Instr) (s : State) (k : Nat) : Nat :=
  match i.op with
  | .dec => pairByte i s k
  | .enc => charAt i s k

theorem outWant_dec {i : Instr} (hop : i.op = .dec) (s : State) : outWant i s = pairByte i s := by
  funext k
  simp only [outWant, hop]

theorem outWant_enc {i : Instr} (hop : i.op = .enc) (s : State) : outWant i s = charAt i s := by
  funext k
  simp only [outWant, hop]

theorem outCount_dec {i : Instr} (hop : i.op = .dec) (s : State) : outCount i s = s.srcLen / 2 := by
  simp only [outCount, hop]

theorem outCount_enc {i : Instr} (hop : i.op = .enc) (s : State) : outCount i s = 2 * s.srcLen := by
  simp only [outCount, hop]

theorem readCount_dec {i : Instr} (hop : i.op = .dec) (s : State) : readCount i s = 2 * (s.srcLen / 2) := by
  simp only [readCount, hop]

theorem readCount_enc {i : Instr} (hop : i.op = .enc) (s : State) : readCount i s = s.srcLen := by
  simp only [readCount, hop]

theorem capacityShort_dec_iff {n cap : Nat} : capacityShort .dec n cap = true ↔ cap * 2 < n := by
  simp [capacityShort]

theorem capacityShort_enc_iff {n cap : Nat} : capacityShort .enc n cap = true ↔ cap < n * 2 := by
  simp [capacityShort]

theorem Ending.status_eq {i : Instr} {s t : State} (h : Ending i s t) : t.status = verdict i s := by
  cases h with
  | decShort hop hc => exact (if_pos (by rw [hop, capacityShort_dec_iff]; exact hc)).symm
  | encShort hop hc => exact (if_pos (by rw [hop, capacityShort_enc_iff]; exact hc)).symm
  | decOk s' hop hc hv _ =>
    rw [verdict, hop, capacityShort_dec_eq_false_iff.mpr hc, if_neg Bool.false_ne_true, if_neg]
    · rfl
    · rintro ⟨-, k, hk, hbad⟩
      exact hv k hk hbad
  | encOk s' hop hc _ =>
    rw [verdict, hop, capacityShort_enc_eq_false_iff.mpr hc, if_neg Bool.false_ne_true, if_neg]
    · rfl
    · rintro ⟨hdec, -⟩
      cases hdec
  | decBad e s' hop hc he _ _ =>
    rw [raiseInvalidChar_status, verdict, hop, capacityShort_dec_eq_false_iff.mpr hc,
      if_neg Bool.false_ne_true, if_pos ⟨rfl, e, he.1, he.2.1⟩]

theorem verdict_cases (i : Instr) (s : State) :
    verdict i s = .ok ∨ verdict i s = .errCapacity ∨ (verdict i s = .errInvalidChar ∧ i.op = .dec) := by
  unfold verdict
  split
  · exact .inr (.inl rfl)
  · split
    · rename_i hinv
      exact .inr (.inr ⟨rfl, hinv.1⟩)
    · exact .inl rfl

theorem verdict_eq_errInvalidChar_iff (i : Instr) (s : State) :
    verdict i s = .errInvalidChar ↔
      i.op = .dec ∧ s.srcLen ≤ s.dstCap * 2 ∧ ∃ k < 2 * (s.srcLen / 2), nibbleOf i s k = INVALID := by
  unfold verdict
  split
  · rename_i hshort
    refine ⟨nofun, fun ⟨hop, hroom, _⟩ => ?_⟩
    rw [hop, capacityShort_dec_iff] at hshort
    omega
  · rename_i hroom
    split
    · rename_i hinv
      rw [hinv.1, capacityShort_dec_iff] at hroom
      exact ⟨fun _ => ⟨hinv.1, by omega, hinv.2⟩, fun _ => rfl⟩
    · rename_i hinv
      exact ⟨nofun, fun ⟨hop, _, hbad⟩ => absurd ⟨hop, hbad⟩ hinv⟩

theorem Ending.mem_of_errCapacity {i : Instr} {s t : State} (h : Ending i s t) (ht : t.status = .errCapacity) :
    t.mem = s.mem := by
  cases h with
  | decShort _ _ => rfl
  | encShort _ _ => rfl
  | decOk _ _ _ _ _ => simp at ht
  | encOk _ _ _ _ => simp at ht
  | decBad _ _ _ _ _ _ _ => simp at ht

/-- A command that ended `OK` has written all its elements, and nothing else (R200 (c), R204). -/
theorem Ending.written_of_ok {i : Instr} {s t : State} (h : Ending i s t) (ht : t.status = .ok) :
    Written (sampleJob i s) s.mem (outWant i s) (outCount i s) t.mem ∧ outCount i s ≤ s.dstCap := by
  cases h with
  | decShort _ _ => simp at ht
  | encShort _ _ => simp at ht
  | decOk s' hop hc _ p =>
    rw [outWant_dec hop, outCount_dec hop]
    exact ⟨p.written, by omega⟩
  | encOk s' hop hc p =>
    rw [outWant_enc hop, outCount_enc hop]
    exact ⟨p.written, by omega⟩
  | decBad _ _ _ _ _ _ _ => simp at ht

/-- A command that ended `ERR_INVALID_CHAR` is a decode with a first invalid validated character (R227). -/
theorem Ending.firstInvalid_of_errInvalidChar {i : Instr} {s t : State} (h : Ending i s t)
    (ht : t.status = .errInvalidChar) :
    i.op = .dec ∧ s.srcLen ≤ s.dstCap * 2 ∧ ∃ e, FirstInvalid i s e := by
  cases h with
  | decShort _ _ => simp at ht
  | encShort _ _ => simp at ht
  | decOk _ _ _ _ _ => simp at ht
  | encOk _ _ _ _ => simp at ht
  | decBad e _ hop hc he _ _ => exact ⟨hop, hc, e, he⟩

end Sys2Proof.Machine
end

section
/-! SUPPORT. Two runs of one command on the same input (20_memory.md R60, 00_scope.md R3, R4): they end with the
same `STATUS`, and what both write is the same. -/

namespace Sys2Proof.Machine

/-- In `s'` the command has the operands it has in `s`, and reads the same source elements (R60). -/
structure SameInput (i : Instr) (s s' : State) : Prop where
  len : s'.srcLen = s.srcLen
  dst : s'.dstBase = s.dstBase
  cap : s'.dstCap = s.dstCap
  src : ∀ k < readCount i s, srcElem i s' k = srcElem i s k

theorem SameInput.nibbleOf {i : Instr} {s s' : State} (h : SameInput i s s') (hop : i.op = .dec) {k : Nat}
    (hk : k < 2 * (s.srcLen / 2)) : nibbleOf i s' k = nibbleOf i s k := by
  rw [Machine.nibbleOf, h.src k (by rwa [readCount_dec hop]), Machine.nibbleOf]

theorem SameInput.verdict {i : Instr} {s s' : State} (h : SameInput i s s') : verdict i s' = verdict i s := by
  have hinv : (i.op = .dec ∧ ∃ k < 2 * (s.srcLen / 2), Machine.nibbleOf i s' k = INVALID) ↔
      (i.op = .dec ∧ ∃ k < 2 * (s.srcLen / 2), Machine.nibbleOf i s k = INVALID) :=
    and_congr_right fun hop => exists_congr fun k => and_congr_right fun hk => by rw [h.nibbleOf hop hk]
  simp only [Machine.verdict, h.len, h.cap, hinv]

theorem SameInput.firstInvalid {i : Instr} {s s' : State} {e : Nat} (h : SameInput i s s')
    (hop : i.op = .dec) (he : FirstInvalid i s e) : FirstInvalid i s' e := by
  obtain ⟨hlt, hbad, hbefore⟩ := he
  refine ⟨by rwa [h.len], (h.nibbleOf hop hlt).trans hbad, fun k hk => ?_⟩
  rw [h.nibbleOf hop (hk.trans hlt)]
  exact hbefore k hk

theorem SameInput.pairByte {i : Instr} {s s' : State} (h : SameInput i s s') (hop : i.op = .dec) {p : Nat}
    (hp : p < s.srcLen / 2) : pairByte i s' p = pairByte i s p := by
  rw [Machine.pairByte, h.nibbleOf hop (by omega), h.nibbleOf hop (by omega), Machine.pairByte]

theorem SameInput.outCount {i : Instr} {s s' : State} (h : SameInput i s s') :
    outCount i s' = outCount i s := by
  simp only [Machine.outCount, h.len]

theorem SameInput.outWant {i : Instr} {s s' : State} (h : SameInput i s s') {k : Nat}
    (hk : k < Machine.outCount i s) : outWant i s' k = outWant i s k := by
  rcases op_cases i with hop | hop
  · rw [outCount_dec hop] at hk
    rw [outWant_dec hop, outWant_dec hop, h.pairByte hop hk]
  · rw [outCount_enc hop] at hk
    rw [outWant_enc hop, outWant_enc hop, charAt, h.src (k / 2) (by rw [readCount_enc hop]; omega), charAt]

/-- Every byte is the same in `m` and `m'`, or in both as it was in `m0` and in `m0'`. -/
def SameOrKept (m0 m0' m m' : Memory) : Prop :=
  ∀ a, m.read a = m'.read a ∨ (m.read a = m0.read a ∧ m'.read a = m0'.read a)

theorem SameOrKept.refl (m0 m0' : Memory) : SameOrKept m0 m0' m0 m0' := fun _ => .inr ⟨rfl, rfl⟩

/-- Over memory that reads the same the results read the same. -/
theorem SameOrKept.read_eq {m0 m m' : Memory} (h : SameOrKept m0 m0 m m') (a : Nat) :
    m.read a = m'.read a :=
  (h a).elim id fun ⟨hm, hm'⟩ => hm.trans hm'.symm

theorem Written.sameOrKept {j j' : Job} {m0 m0' m m' : Memory} {want want' : Nat → Nat} {n : Nat}
    (h : Written j m0 want n m) (h' : Written j' m0' want' n m') (hi : j.instr = j'.instr)
    (hd : j.dst = j'.dst) (hw : ∀ k < n, want k = want' k) : SameOrKept m0 m0' m m' := by
  intro a
  have haddr : j.dstAddr n = j'.dstAddr n := by simp only [Job.dstAddr, hi, hd]
  by_cases hin : a < j.dst ∨ j.dstAddr n ≤ a
  · exact .inr ⟨h.outside a hin, h'.outside a (by rwa [← hd, ← haddr])⟩
  · have hk : (a - j'.dst) / esDst j'.instr < n := by
      rw [Nat.div_lt_iff_lt_mul (esDst_pos j'.instr)]
      simp only [Job.dstAddr, hi, hd] at hin
      omega
    rw [h a, h' a, if_pos (by omega), if_pos (by omega), hd, hi, hw _ hk]
    exact .inl rfl

/-- The same freely drawn bytes leave the two memories as alike as before (R228). -/
theorem SameOrKept.memFree {m0 m0' m m' : Memory} (h : SameOrKept m0 m0' m m') (a d n : Nat) :
    SameOrKept m0 m0' (memFree m a d n) (memFree m' a d n) := by
  intro c
  rw [read_memFree, read_memFree]
  split
  · exact .inl rfl
  · exact h c

section
variable {i : Instr} {s s' t u : State}

theorem SameInput.status (h : SameInput i s s') (ht : Ending i s t) (hu : Ending i s' u) :
    t.status = u.status := by
  rw [ht.status_eq, hu.status_eq, h.verdict]

/-- Two successful runs write the same elements, in whatever tiers they ran. -/
theorem SameInput.mem_of_ok (h : SameInput i s s') (ht : Ending i s t) (hu : Ending i s' u)
    (hok : t.status = .ok) : SameOrKept s.mem s'.mem t.mem u.mem := by
  obtain ⟨hwt, -⟩ := ht.written_of_ok hok
  obtain ⟨hwu, -⟩ := hu.written_of_ok ((h.status ht hu).symm.trans hok)
  rw [h.outCount] at hwu
  exact hwt.sameOrKept hwu rfl h.dst.symm fun k hk => (h.outWant hk).symm

/-- Two runs that meet the same invalid character write the same pairs before it and draw the same bytes. -/
theorem SameInput.mem_of_invalid (h : SameInput i s s') (hparams : s'.params = s.params)
    (hdraws : s'.draws = s.draws) (hr : Ready i s) (hr' : Ready i s') (ht : Ending i s t)
    (het : exec i s = .next t) (heu : exec i s' = .next u) (hinv : t.status = .errInvalidChar) :
    SameOrKept s.mem s'.mem t.mem u.mem := by
  obtain ⟨hop, hroom, e, he⟩ := ht.firstInvalid_of_errInvalidChar hinv
  obtain ⟨t', m, het', -, -, hm, href, hcon⟩ := exec_dec_fails hop hr hroom he
  obtain ⟨u', m', heu', -, -, hm', href', hcon'⟩ :=
    exec_dec_fails hop hr' (by rwa [h.len, h.cap]) (h.firstInvalid hop he)
  obtain rfl := Host.Outcome.next.inj (het.symm.trans het')
  obtain rfl := Host.Outcome.next.inj (heu.symm.trans heu')
  have hle := wRef_le s.params.tier s.srcLen e he.1
  rw [hparams, h.len] at hm'
  rw [hparams] at href' hcon'
  have hpairs : SameOrKept s.mem s'.mem m m' :=
    hm.sameOrKept hm' rfl h.dst.symm fun k hk => (h.pairByte hop (hk.trans_le hle)).symm
  cases hfo : s.params.failOutput with
  | reference =>
    rw [href hfo, href' hfo]
    exact hpairs
  | contract =>
    rw [hcon hfo, hcon' hfo, h.dst, h.cap, hdraws]
    exact hpairs.memFree _ _ _

/-- Two runs in units with the same parameters and the same draws write the same. -/
theorem SameInput.mem (h : SameInput i s s') (hparams : s'.params = s.params) (hdraws : s'.draws = s.draws)
    (hb : s.isBusy = false) (hb' : s'.isBusy = false) (het : exec i s = .next t) (heu : exec i s' = .next u) :
    t.status = u.status ∧ SameOrKept s.mem s'.mem t.mem u.mem := by
  obtain ⟨hr, ht⟩ := exec_ending hb het
  obtain ⟨hr', hu⟩ := exec_ending hb' heu
  have hstatus := h.status ht hu
  refine ⟨hstatus, ?_⟩
  rcases verdict_cases i s with hv | hv | ⟨hv, -⟩ <;> rw [← ht.status_eq] at hv
  · exact h.mem_of_ok ht hu hv
  · rw [ht.mem_of_errCapacity hv, hu.mem_of_errCapacity (hstatus.symm.trans hv)]
    exact .refl s.mem s'.mem
  · exact h.mem_of_invalid hparams hdraws hr hr' ht het heu hv

end

end Sys2Proof.Machine
end

section
/-! SUPPORT. The refusals of `exec` (20_memory.md R58, R59) as bounds on the operands. -/

namespace Sys2Proof.Machine

theorem Job.viewsInside_iff (p : Params) (j : Job) :
    j.viewsInside p = true ↔ j.srcEnd ≤ 2 ^ p.addrBits ∧ j.dstEnd ≤ 2 ^ p.addrBits := by
  simp [Job.viewsInside]

theorem viewRefusal_eq_viewWraps_iff (p : Params) (j : Job) :
    viewRefusal p j = some .viewWraps ↔ 2 ^ p.addrBits < j.srcEnd ∨ 2 ^ p.addrBits < j.dstEnd := by
  have hinside : viewRefusal p j = some .viewWraps ↔ ¬ j.viewsInside p = true := by
    cases hin : j.viewsInside p <;> cases hdis : j.viewsDisjoint <;> simp [viewRefusal, hin, hdis]
  rw [hinside, Job.viewsInside_iff]
  omega

theorem viewRefusal_eq_viewsOverlap_iff (p : Params) (j : Job) :
    viewRefusal p j = some .viewsOverlap ↔
      j.srcEnd ≤ 2 ^ p.addrBits ∧ j.dstEnd ≤ 2 ^ p.addrBits ∧ ∃ a, j.inSrc a = true ∧ j.inDst a = true := by
  have hboth : viewRefusal p j = some .viewsOverlap ↔ j.viewsInside p = true ∧ ¬ j.viewsDisjoint = true := by
    cases hin : j.viewsInside p <;> cases hdis : j.viewsDisjoint <;> simp [viewRefusal, hin, hdis]
  rw [hboth, Job.viewsInside_iff, Job.viewsDisjoint_iff, not_forall, and_assoc]
  simp only [not_not]

theorem exec_eq_refused_iff {i : Instr} {s : State} {r : Refusal} (hb : s.isBusy = false) :
    exec i s = .refused r ↔ viewRefusal s.params (sampleJob i s) = some r := by
  refine ⟨fun he => ?_, exec_refused i hb⟩
  cases hv : viewRefusal s.params (sampleJob i s) with
  | none =>
    obtain ⟨t, het, -⟩ := exec_ready ⟨hb, hv⟩
    rw [het] at he
    cases he
  | some r' =>
    rw [exec_refused i hb hv] at he
    cases he
    rfl

theorem exec_next_iff {i : Instr} {s : State} (hb : s.isBusy = false) :
    (∃ t, exec i s = .next t) ↔ Ready i s :=
  ⟨fun ⟨_, he⟩ => exec_next_ready hb he, fun hr => (exec_ready hr).imp fun _ h => h.1⟩

end Sys2Proof.Machine
end

section
/-! SUPPORT. The byte loop of `SENC` from any source and destination offset (41_scalar_engine.md R128, R129), and
the encode block step as one function (43_vector_encode.md R178). -/

namespace Sys2Proof.Machine

/-- Character `k` of the text of the bytes from source element `i0` on (R178). -/
def textAt (j : Job) (m : Memory) (i0 k : Nat) : Nat :=
  let b : Byte := BitVec.ofNat 8 (srcRead j m (i0 + k / 2))
  if k % 2 = 0 then (n2c (b.extractLsb' 4 4)).toNat else (n2c (b.extractLsb' 0 4)).toNat

/-- `s` with the first `n` of those characters in the destination elements from `o0` on. -/
def withText (j : Job) (i0 o0 n : Nat) (s : State) : State :=
  { s with mem := dstWriteAll j s.mem o0 ((List.range n).map (textAt j s.mem i0)) }

theorem textAt_two_mul (j : Job) (m : Memory) (i0 p : Nat) :
    textAt j m i0 (2 * p) = charOf ((BitVec.ofNat 8 (srcRead j m (i0 + p))).extractLsb' 4 4) := by
  simp [textAt, charOf]

theorem textAt_two_mul_add_one (j : Job) (m : Memory) (i0 p : Nat) :
    textAt j m i0 (2 * p + 1) = charOf ((BitVec.ofNat 8 (srcRead j m (i0 + p))).extractLsb' 0 4) := by
  simp [textAt, charOf, Nat.mul_add_div]

theorem withText_succ_mem (j : Job) (i0 o0 n : Nat) (s : State) :
    (withText j i0 o0 (n + 1) s).mem =
      dstWrite j (withText j i0 o0 n s).mem (o0 + n) (textAt j s.mem i0 n) := by
  simp [withText, List.range_succ, dstWriteAll_append, dstWriteAll]

/-- The next byte: the characters already written lie in the destination view, so it reads as before (R59). -/
theorem sencByte_withText {j : Job} {i0 o0 p : Nat} {s : State} (hd : j.viewsDisjoint = true)
    (hlen : i0 + p < j.len) (hcap : o0 + 2 * p ≤ j.cap) :
    sencByte j i0 o0 p (withText j i0 o0 (2 * p) s) = .go (withText j i0 o0 (2 * (p + 1)) s) := by
  have hread : srcRead j (withText j i0 o0 (2 * p) s).mem (i0 + p) = srcRead j s.mem (i0 + p) :=
    srcRead_dstWriteAll hd (by simpa using hcap) hlen s.mem
  have hmem : (withText j i0 o0 (2 * (p + 1)) s).mem =
      dstWrite j (dstWrite j (withText j i0 o0 (2 * p) s).mem (o0 + 2 * p) (textAt j s.mem i0 (2 * p)))
        (o0 + 2 * p + 1) (textAt j s.mem i0 (2 * p + 1)) := by
    rw [Nat.mul_succ, withText_succ_mem, withText_succ_mem, Nat.add_assoc]
  rw [textAt_two_mul, textAt_two_mul_add_one] at hmem
  simp only [sencByte, hread, ← hmem]
  rfl

/-- `n` bytes are all written (R129). -/
theorem sencBytes {j : Job} {i0 o0 n : Nat} {s : State} (hd : j.viewsDisjoint = true)
    (hlen : i0 + n ≤ j.len) (hcap : o0 + 2 * n ≤ j.cap) :
    repeatUnits (sencByte j i0 o0) n 0 s = .go (withText j i0 o0 (2 * n) s) := by
  induction n with
  | zero => rfl
  | succ n ih =>
    have hprev := ih (by omega) (by omega)
    have hnext := sencByte_withText (s := s) hd (show i0 + n < j.len by omega)
      (show o0 + 2 * n ≤ j.cap by omega)
    rw [repeatUnits_add, hprev]
    simp only [repeatUnits, Flow.andThen, Nat.zero_add, hnext]

/-- One block has room for its characters, so `SENC` on it is its byte loop (R126, R127). -/
theorem senc_block (j : Job) (i0 o0 : Nat) (t : Tier) (s : State) :
    senc j i0 (blockBytes t) o0 (blockChars t) s = repeatUnits (sencByte j i0 o0) (blockBytes t) 0 s := by
  have hroom : capacityShort .enc (blockBytes t) (blockChars t) = false := by cases t <;> rfl
  rw [senc, hroom]
  rfl

/-- The lanes that the block step stores are the characters of the block (R177, R178). -/
theorem vencRegs_text (j : Job) (t : Tier) (i0 : Nat) (m : Memory) (v : VecRegs) :
    (vencRegs t j.instr.cw (srcRead j m) i0 v).z.flatten.map BitVec.toNat =
      (List.range (blockChars t)).map (textAt j m i0) := by
  rw [vencRegs_spec, flatten_bank, map_lanes]
  refine List.map_congr_left fun k _ => ?_
  rw [BitVec.toNat_setWidth_of_le (by decide), nibbleLane, textAt]
  split <;> rfl

theorem vencBlock_eq (j : Job) (i0 o0 : Nat) (s : State) :
    ∃ v, vencBlock j i0 o0 s = .go { withText j i0 o0 (blockChars s.params.tier) s with vec := v } :=
  ⟨vencRegs s.params.tier j.instr.cw (srcRead j s.mem) i0 s.vec, by
    simp only [vencBlock, vencRegs_text]
    rfl⟩

end Sys2Proof.Machine
end

section
/-! CLAIMS. The statements about whole commands: the encode block step, what each command computes, reads,
writes, and the codes and refusals it can end with. -/

namespace Sys2Proof.Machine

/-- Settles O8: the lanes of `Z` are the block's characters, and `SENC` writes the same ones byte by byte, since
its stores never reach the source view. -/
theorem encodeBlockWritesWhatSencWrites : Obligations.EncodeBlockWritesWhatSencWrites := by
  intro j i0 o0 s hd hlen hcap
  obtain ⟨v, hv⟩ := vencBlock_eq j i0 o0 s
  refine ⟨v, (withText j i0 o0 (blockChars s.params.tier) s).mem, hv, ?_, rfl⟩
  rw [blockChars_eq] at hcap
  rw [senc_block, sencBytes hd hlen hcap, ← blockChars_eq]
  rfl

/-- Settles O9: the written elements are the pairs, and a decoded element is one byte. -/
theorem decodeOfValidTextCompletes : Obligations.DecodeOfValidTextCompletes := by
  intro i s hi hr hroom hv
  have hop : i.op = .dec := by rcases hi with rfl | rfl | rfl <;> rfl
  obtain ⟨t, he, hok, hkept, hw⟩ := exec_dec_writes hop hr hroom hv
  refine ⟨t, he, hok, fun p hp => dstElem_of_written hw hp (pairByte_lt i s p), ?_, hkept⟩
  rw [← dstAddr_dec hop]
  exact hw.outside

/-- Settles O12: the verdict of the command, and its stores keep to the destination view. -/
theorem invalidCharacterErrorExactly : Obligations.InvalidCharacterErrorExactly := by
  intro i s hr
  obtain ⟨t, he, hend⟩ := exec_ready hr
  refine ⟨t, he, ?_, fun a ha => hend.changesDst.source (viewRefusal_none hr.2).2.2 ha⟩
  rw [hend.status_eq]
  exact verdict_eq_errInvalidChar_iff i s

/-- Settles O15: neither the verdict nor the written elements mention the tier. -/
theorem tiersAreInterchangeable : Obligations.TiersAreInterchangeable := by
  intro i s tier t u hb het heu
  have hsame : SameInput i s { s with params := { s.params with tier := tier } } :=
    ⟨rfl, rfl, rfl, fun _ _ => rfl⟩
  obtain ⟨-, ht⟩ := exec_ending hb het
  obtain ⟨-, hu⟩ := exec_ending (s := { s with params := { s.params with tier := tier } }) hb heu
  exact ⟨hsame.status ht hu, fun hok => (hsame.mem_of_ok ht hu hok).read_eq⟩

/-- Settles O21: the source elements a command reads are all of memory that its input holds. -/
theorem commandReadsNoMoreThanItsFootprint : Obligations.CommandReadsNoMoreThanItsFootprint := by
  intro i s t u m hb hsrc het heu
  have hsame : SameInput i s { s with mem := m } := ⟨rfl, rfl, rfl, hsrc⟩
  exact hsame.mem rfl rfl hb hb het heu

/-- Settles O22: every ending stores inside the destination view only; `OK` has stored its elements exactly. -/
theorem memoryFrameOfCommands : Obligations.MemoryFrameOfCommands := by
  intro i s t hb he
  obtain ⟨hr, hend⟩ := exec_ending hb he
  have hdst := hend.changesDst
  refine ⟨fun a ha => hdst.outside a ((Job.inDst_eq_false_iff _ a).mpr ha), fun hok => ?_,
    hend.mem_of_errCapacity, fun a ha => hdst.source (viewRefusal_none hr.2).2.2 ha⟩
  obtain ⟨hw, hroom⟩ := hend.written_of_ok hok
  exact ⟨hw.outside, hroom⟩

/-- Settles O23: by the endings of a command; while `BUSY` nothing changes at all. -/
theorem registerFrameOfCommands : Obligations.RegisterFrameOfCommands :=
  fun _ _ _ => exec_regsKept

/-- Settles O24: the verdict of a command is one of the three codes. -/
theorem commandsEndInOneOfThreeCodes : Obligations.CommandsEndInOneOfThreeCodes := by
  intro i s hr
  obtain ⟨t, he, hend⟩ := exec_ready hr
  refine ⟨t, he, ?_⟩
  rw [hend.status_eq]
  exact verdict_cases i s

/-- Settles O25: `exec` refuses what `viewRefusal` names, and runs the command otherwise. -/
theorem viewsOutsideTheSpecAreRefused : Obligations.ViewsOutsideTheSpecAreRefused := by
  intro i s hb
  refine ⟨(exec_eq_refused_iff hb).trans (viewRefusal_eq_viewWraps_iff _ _), ?_, exec_next_iff hb⟩
  rw [exec_eq_refused_iff hb, viewRefusal_eq_viewsOverlap_iff]
  simp only [Job.inSrc_iff, Job.inDst_iff]
  rfl

/-- Settles O44: the two states are the same input with the same draws. -/
theorem nothingIsCarriedOver : Obligations.NothingIsCarriedOver := by
  intro i s s' t t' hb hb' hparams hsrc hlen hdst hcap hmem hdraws het heu
  have hsame : SameInput i s s' :=
    ⟨hlen.symm, hdst.symm, hcap.symm, fun k _ => by
      simp only [srcElem, srcRead, Job.srcAddr, sampleJob_src, sampleJob_instr, hsrc, hmem]⟩
  obtain ⟨hstatus, hboth⟩ := hsame.mem hparams.symm hdraws.symm hb hb' het heu
  rw [← hmem] at hboth
  exact ⟨hstatus, hboth.read_eq⟩

end Sys2Proof.Machine
end

section
/-! SUPPORT. Reset (10_state.md R37, 70_reset_and_hazards.md R250, R251), the codes of `STATUS` (10_state.md R22),
and the end of a running command (44_dispatcher_commands.md R208). -/

namespace Sys2Proof.Machine

/-- The empty views that follow reset keep R58 and R59. -/
theorem ready_resetOf (i : Instr) (p : Params) (m : Memory) : Ready i { State.resetOf p with mem := m } := by
  refine ⟨rfl, viewRefusal_eq_none_iff.mpr ⟨?_, ?_⟩⟩
  · simp [Job.viewsInside_iff, Job.srcEnd, Job.dstEnd, Job.srcAddr, Job.dstAddr]
  · simp [Job.viewsDisjoint, Job.srcEnd, Job.srcAddr]

/-- A command over no elements has no work to do. -/
theorem workFlow_of_empty {j : Job} (h : j.len = 0) (s : State) : workFlow j s = .go s := by
  have hblocks : fullBlocks j.instr.op s.params.tier j.len = 0 := by simp [fullBlocks, h]
  have hunits : tailUnits j.instr.op s.params.tier j.len = 0 := by
    cases hop : j.instr.op <;> simp [tailUnits, h]
  rw [workFlow, hblocks, hunits]
  rfl

theorem capacityShort_of_empty (op : Op) (cap : Nat) : capacityShort op 0 cap = false := by
  cases op <;> simp [capacityShort]

theorem resetMemory_reference {s : State} (h : s.params.failOutput = .reference) :
    (resetMemory s).mem = s.mem := by
  cases hs : s.status with
  | busy j => simp only [resetMemory, hs, h]
  | _ => rw [resetMemory_of_not_busy (isBusy_of_status hs)]

/-- The fields of the byte that a code of `STATUS` reads as (R22). -/
theorem status_fields (c : BitVec 3) :
    (c.setWidth 8).extractLsb' 0 3 = c ∧ (c.setWidth 8).extractLsb' 3 5 = 0 := by
  revert c; decide

/-- Codes 6 and 7 do not exist (R22). -/
theorem code_lt (st : Status) : st.code.toNat < 6 := by
  cases st <;> simp [Status.code]

/-- One of the three codes a command ends with (R208). -/
def Status.Ended (st : Status) : Prop := st = .ok ∨ st = .errCapacity ∨ st = .errInvalidChar

/-- One step of a command at work ends it, or leaves it at work with one step less to go. -/
theorem TickOf.work {j : Job} {s t : State} {b p u : Nat} (h : TickOf j s t) (hp : j.phase = .work b p u) :
    t.status.Ended ∨
      ∃ j' b' p' u', t.status = .busy j' ∧ j'.phase = .work b' p' u' ∧ b' + u' + 1 = b + u := by
  cases h with
  | short hphase _ => rw [hp] at hphase; cases hphase
  | start hphase _ => rw [hp] at hphase; cases hphase
  | blockBad _ _ _ _ _ _ => exact .inl (.inr (.inr (raiseInvalidChar_status _ _)))
  | block b' _ _ _ _ hphase _ =>
    rw [hp] at hphase; cases hphase
    exact .inr ⟨_, b', _, _, rfl, rfl, by omega⟩
  | scalarBad _ _ _ _ => exact .inl (.inr (.inr (raiseInvalidChar_status _ _)))
  | scalar _ _ _ hphase _ =>
    rw [hp] at hphase; cases hphase
    exact .inr ⟨_, 0, _, _, rfl, rfl, by omega⟩
  | done _ _ => exact .inl (.inl rfl)

/-- A command at work ends within a step for each unit of work left and one for the final status. -/
theorem work_ends (n : Nat) {s : State} {j : Job} {b p u : Nat} (hs : s.status = .busy j)
    (hp : j.phase = .work b p u) (hn : b + u = n) : ∃ k ≤ n + 1, (unitTurns k s).status.Ended := by
  induction n generalizing s j b p u with
  | zero =>
    rcases (tick_cases j s).work hp with hend | ⟨_, b', _, u', _, _, hless⟩
    · exact ⟨1, Nat.le_refl 1, by rwa [unitTurns, unitTurns, unitTurn_busy hs]⟩
    · omega
  | succ n ih =>
    rcases (tick_cases j s).work hp with hend | ⟨j', b', p', u', hs', hp', hless⟩
    · exact ⟨1, by omega, by rwa [unitTurns, unitTurns, unitTurn_busy hs]⟩
    · obtain ⟨k, hk, hend⟩ := ih hs' hp' (by omega)
      exact ⟨k + 1, by omega, by rwa [unitTurns, unitTurn_busy hs]⟩

/-- A command at its capacity check ends there or goes to work. -/
theorem check_ends {s : State} {j : Job} (hs : s.status = .busy j) (hp : j.phase = .check) :
    ∃ k ≤ commandSteps j.instr s.params.tier j.len, (unitTurns k s).status.Ended := by
  rw [commandSteps_eq]
  cases hc : capacityShort j.instr.op j.len j.cap with
  | true =>
    refine ⟨1, by omega, ?_⟩
    rw [unitTurns, unitTurns, unitTurn_busy hs, tick_of_short hp hc]
    exact .inr (.inl rfl)
  | false =>
    obtain ⟨k, hk, hend⟩ := work_ends _ (s := startWork j s) rfl rfl rfl
    refine ⟨1 + k, Nat.add_le_add_left hk 1, ?_⟩
    rw [unitTurns_add, unitTurns, unitTurns, unitTurn_busy hs, tick_of_room hp hc]
    exact hend

end Sys2Proof.Machine
end

section
/-! SUPPORT. When each act of the host is answered with a next state (20_memory.md R50, R58, R59,
70_reset_and_hazards.md R256), and the host's accesses while a command runs. -/

namespace Sys2Proof.Machine

theorem hostStore_busy {s : State} {j : Job} {a : Nat} (hs : s.status = .busy j)
    (ha : a < 2 ^ s.params.addrBits) (b : Byte) :
    hostStore a b s =
      if j.inSrc a || j.inDst a then .refused .bufferInUse else .next { s with mem := s.mem.write a b } := by
  simp only [hostStore, if_pos ha, storeForbidden, hs]

theorem hostLoad_busy {s : State} {j : Job} {a : Nat} (hs : s.status = .busy j)
    (ha : a < 2 ^ s.params.addrBits) :
    hostLoad a s =
      if j.inDst a then .refused .bufferInUse else .next { s with rdData := some (s.mem.read a).toNat } := by
  simp only [hostLoad, if_pos ha, loadForbidden, hs]

theorem hostStore_next_iff (a : Nat) (b : Byte) (s : State) :
    (∃ t, hostStore a b s = .next t) ↔ (decide (a < 2 ^ s.params.addrBits) && !storeForbidden s a) = true := by
  unfold hostStore
  split
  · rename_i ha
    cases hf : storeForbidden s a <;> simp [ha]
  · rename_i ha
    simp [ha]

theorem hostLoad_next_iff (a : Nat) (s : State) :
    (∃ t, hostLoad a s = .next t) ↔ (decide (a < 2 ^ s.params.addrBits) && !loadForbidden s a) = true := by
  unfold hostLoad
  split
  · rename_i ha
    cases hf : loadForbidden s a <;> simp [ha]
  · rename_i ha
    simp [ha]

theorem beginCommand_next_iff {i : Instr} {s : State} (hb : s.isBusy = false) :
    (∃ t, beginCommand i s = .next t) ↔ Ready i s :=
  ⟨fun ⟨_, h⟩ => (beginCommand_next hb h).1, fun hr => ⟨_, beginCommand_of_ready hr⟩⟩

/-- A write of `CMD` is answered exactly when the byte may start, whichever grain takes the command up. -/
theorem writeCmd_next_iff {run : Instr → State → Host.Outcome State Fault Refusal} {b : Byte} {s : State}
    (hrun : ∀ i, (∃ t, run i { s with cmd := b } = .next t) ↔ Ready i { s with cmd := b })
    (hb : s.isBusy = false) : (∃ t, writeCmd run b s = .next t) ↔ startOk b s = true := by
  cases hd : decode b with
  | command i =>
    have hw : writeCmd run b s = run i { s with cmd := b } := by simp only [writeCmd, hd]
    have hok : startOk b s = (viewRefusal s.params (sampleJob i s)).isNone := by simp only [startOk, hd]
    rw [hw, hrun, hok, Option.isNone_iff_eq_none]
    exact and_iff_right hb
  | illegal r =>
    have hok : startOk b s = true := by simp only [startOk, hd]
    rw [writeCmd_illegal hd]
    exact iff_of_true ⟨_, rfl⟩ hok

theorem callCmd_busy {s : State} (h : s.isBusy = true) (b : Byte) :
    callCmd b s = .next { s with queue := .wait :: s.queue } := by
  simp [callCmd, h]

theorem callCmd_next_iff (b : Byte) (s : State) :
    (∃ t, callCmd b s = .next t) ↔ (s.isBusy || startOk b s) = true := by
  cases hb : s.isBusy with
  | true =>
    rw [callCmd_busy hb]
    exact iff_of_true ⟨_, rfl⟩ rfl
  | false =>
    rw [callCmd_of_ready hb, Bool.false_or]
    exact writeCmd_next_iff (fun _ => exec_next_iff hb) hb

theorem writeReg_cmd_next_iff (v : Nat) (s : State) :
    (∃ t, writeReg .cmd v s = .next t) ↔ (s.isBusy || startOk (BitVec.ofNat 8 v) s) = true := by
  cases hb : s.isBusy with
  | true =>
    rw [writeReg_busy hb]
    exact iff_of_true ⟨_, rfl⟩ rfl
  | false =>
    rw [writeReg_cmd_of_ready hb, Bool.false_or]
    exact writeCmd_next_iff (fun _ => beginCommand_next_iff hb) hb

/-- A write of another register than `CMD` is always answered (R20, R22). -/
theorem writeReg_next {r : Reg} (hr : r ≠ .cmd) (v : Nat) (s : State) : ∃ t, writeReg r v s = .next t := by
  cases hb : s.isBusy with
  | true => exact ⟨s, writeReg_busy hb r v⟩
  | false =>
    cases r with
    | cmd => exact absurd rfl hr
    | _ => simp [writeReg, hb]

theorem hostTurn_wait_next (s : State) : ∃ t, hostTurn .wait s = .next t := by
  simp only [hostTurn]
  split <;> exact ⟨_, rfl⟩

theorem hostDutiful_of_wr {r : Reg} {v : Nat} {s : State} {rest : List HostAct} (hr : r ≠ .cmd)
    (hq : s.queue = .wr r v :: rest) : hostDutiful s = true := by
  cases r with
  | cmd => exact absurd rfl hr
  | _ => simp only [hostDutiful, hq]

/-- The host's next act is answered exactly when it keeps the host's duties. -/
theorem hostTurn_next_iff {s : State} {a : HostAct} {rest : List HostAct} (hq : s.queue = a :: rest) :
    (∃ t, hostTurn a { s with queue := rest } = .next t) ↔ hostDutiful s = true := by
  cases a with
  | call b =>
    simp only [hostDutiful, hq]
    exact callCmd_next_iff b { s with queue := rest }
  | wr r v =>
    by_cases hr : r = .cmd
    · subst hr
      simp only [hostDutiful, hq]
      exact writeReg_cmd_next_iff v { s with queue := rest }
    · exact iff_of_true (writeReg_next hr v _) (hostDutiful_of_wr hr hq)
  | rd r => exact iff_of_true ⟨_, rfl⟩ (by simp only [hostDutiful, hq])
  | store a b =>
    simp only [hostDutiful, hq]
    exact hostStore_next_iff a b { s with queue := rest }
  | load a =>
    simp only [hostDutiful, hq]
    exact hostLoad_next_iff a { s with queue := rest }
  | idle => exact iff_of_true ⟨_, rfl⟩ (by simp only [hostDutiful, hq])
  | wait => exact iff_of_true (hostTurn_wait_next _) (by simp only [hostDutiful, hq])
  | reset => exact iff_of_true ⟨_, rfl⟩ (by simp only [hostDutiful, hq])

end Sys2Proof.Machine
end

section
/-! SUPPORT. The steps of a command line (30_encoding.md R92, R93): the operand writes one by one, and runs of
the machine put one after the other. -/

namespace Sys2Proof.Machine

theorem fitReg_of_lt {p : Params} {r : Reg} {v : Nat} (h : v < 2 ^ r.width p) : fitReg p r v = v :=
  Nat.mod_eq_of_lt h

theorem run_succ {M : Host.Core} {k : Nat} {s s' : M.State} (h : M.step s = .next s') :
    M.run (k + 1) s = M.run k s' := by
  simp only [Host.Core.run, h]

/-- `k` steps and then one more. -/
theorem run_succ_last {M : Host.Core} (k : Nat) {s s' t : M.State} (h : M.run k s = .next s')
    (h' : M.step s' = .next t) : M.run (k + 1) s = .next t := by
  induction k generalizing s with
  | zero =>
    cases h
    exact run_succ h'
  | succ k ih =>
    cases hs : M.step s with
    | next u =>
      rw [run_succ hs] at h ⊢
      exact ih h
    | fault r => simp only [Host.Core.run, hs] at h; cases h
    | refused r => simp only [Host.Core.run, hs] at h; cases h

/-- The state after a write of an operand register (R23 to R26). -/
def setOperand (r : Reg) (v : Nat) (s : State) : State :=
  match r with
  | .srcBase => { s with srcBase := v }
  | .srcLen => { s with srcLen := v }
  | .dstBase => { s with dstBase := v }
  | .dstCap => { s with dstCap := v }
  | .cmd => s
  | .status => s

theorem readReg_setOperand_same {r : Reg} (hcmd : r ≠ .cmd) (hstatus : r ≠ .status) (v : Nat) (s : State) :
    readReg r (setOperand r v s) = v := by
  cases r with
  | cmd => exact absurd rfl hcmd
  | status => exact absurd rfl hstatus
  | _ => rfl

theorem readReg_setOperand_ne {r r' : Reg} (hne : r' ≠ r) (v : Nat) (s : State) :
    readReg r' (setOperand r v s) = readReg r' s := by
  cases r with
  | cmd => rfl
  | status => rfl
  | srcBase => cases r' with
    | srcBase => exact absurd rfl hne
    | _ => rfl
  | srcLen => cases r' with
    | srcLen => exact absurd rfl hne
    | _ => rfl
  | dstBase => cases r' with
    | dstBase => exact absurd rfl hne
    | _ => rfl
  | dstCap => cases r' with
    | dstCap => exact absurd rfl hne
    | _ => rfl

theorem setOperand_frame (r : Reg) (v : Nat) (s : State) :
    (setOperand r v s).mem = s.mem ∧ (setOperand r v s).status = s.status ∧
      (setOperand r v s).params = s.params := by
  cases r <;> exact ⟨rfl, rfl, rfl⟩

/-- A write of a value of the register's width stores that value (R20). -/
theorem writeReg_of_ready {r : Reg} {v : Nat} {s : State} (hb : s.isBusy = false) (hr : r ≠ .cmd)
    (hv : v < 2 ^ r.width s.params) : writeReg r v s = .next (setOperand r v s) := by
  have hfit := fitReg_of_lt hv
  cases r with
  | cmd => exact absurd rfl hr
  | _ => simp [writeReg, hb, setOperand, hfit]

theorem step_wr {r : Reg} {v : Nat} {s : State} {rest : List HostAct} (hq : s.queue = .wr r v :: rest)
    (hb : s.isBusy = false) (hr : r ≠ .cmd) (hv : v < 2 ^ r.width s.params) :
    step s = .next (setOperand r v { s with queue := rest }) :=
  (step_of_queue hq).trans (writeReg_of_ready (s := { s with queue := rest }) hb hr hv)

theorem run_wr {k : Nat} {r : Reg} {v : Nat} {s : State} {rest : List HostAct}
    (hq : s.queue = .wr r v :: rest) (hb : s.isBusy = false) (hr : r ≠ .cmd) (hv : v < 2 ^ r.width s.params) :
    Host.Core.run core (k + 1) s = Host.Core.run core k (setOperand r v { s with queue := rest }) :=
  run_succ (M := core) (step_wr hq hb hr hv)

/-- A step of the machine on the command form of a command is the whole command (R92). -/
theorem step_call {s : State} {b : Byte} {rest : List HostAct} {i : Instr} (hq : s.queue = .call b :: rest)
    (hb : s.isBusy = false) (hd : decode b = .command i) : step s = exec i { s with cmd := b, queue := rest } := by
  rw [step_of_queue hq]
  refine (callCmd_of_ready (s := { s with queue := rest }) hb b).trans ?_
  simp only [writeCmd, hd]

/-- A command line of which the operands fit their registers. -/
theorem CommandLine.wf_iff (p : Params) (c : CommandLine) :
    c.wf p = true ↔ c.src < 2 ^ p.addrBits ∧ c.n < 2 ^ p.lenBits ∧ c.dst < 2 ^ p.addrBits ∧
      c.cap < 2 ^ p.lenBits := by
  simp [CommandLine.wf, and_assoc]

/-- The operand writes of a command line, one step each (R92). -/
theorem run_commandLine {s : State} {c : CommandLine} {rest : List HostAct} (hb : s.isBusy = false)
    (hwf : c.wf s.params = true) (hq : s.queue = commandLineActs c ++ rest) :
    Host.Core.run core 4 s = .next
      { s with
        srcBase := c.src, srcLen := c.n, dstBase := c.dst, dstCap := c.cap
        queue := .call (encode c.instr) :: rest } := by
  obtain ⟨hsrc, hlen, hdst, hcap⟩ := (CommandLine.wf_iff s.params c).mp hwf
  refine Eq.trans (run_wr (r := .srcBase) hq hb (by decide) hsrc) ?_
  refine Eq.trans (run_wr (r := .srcLen) rfl hb (by decide) hlen) ?_
  refine Eq.trans (run_wr (r := .dstBase) rfl hb (by decide) hdst) ?_
  exact Eq.trans (run_wr (r := .dstCap) rfl hb (by decide) hcap) rfl

theorem decode_encode (i : Instr) : decode (encode i) = .command i := by
  rw [decode_eq_command_iff]
  cases i <;> rfl

/-- The operands of the expansion fit their registers when those of the `ENCA` line do (R93). -/
theorem wf_encaCommandLine {p : Params} {c : EncaLine} (h : c.wf p = true) :
    (encaCommandLine c).wf p = true := by
  simp only [EncaLine.wf, Bool.and_eq_true, decide_eq_true_eq] at h
  obtain ⟨⟨hsrc, hcap⟩, hdst⟩ := h
  exact (CommandLine.wf_iff p _).mpr ⟨hsrc, by simp only [encaCommandLine]; omega, hdst, hcap⟩

end Sys2Proof.Machine
end

section
/-! CLAIMS. The statements about reset, about a running command and about what the host does. -/

namespace Sys2Proof.Machine

/-- Settles O33: the operands after reset are empty views, and a command over no elements does no work. -/
theorem resetState : Obligations.ResetState := by
  refine ⟨⟨Config.resetParams, rfl⟩, fun p => ⟨rfl, rfl, rfl, rfl, rfl, rfl, fun i m => ?_⟩⟩
  have he := exec_of_room (ready_resetOf i p m) (capacityShort_of_empty i.op 0)
  rw [workFlow_of_empty rfl] at he
  exact ⟨_, he, rfl, rfl⟩

/-- Settles O34: the registers are those of `State.resetOf`; memory changes only where a command runs, inside
its destination view, and under `reference` not at all. -/
theorem resetAtAnyTime : Obligations.ResetAtAnyTime := by
  intro s
  refine ⟨applyReset s, rfl, rfl, rfl, rfl, rfl, rfl, rfl, rfl, fun hb => ?_, resetMemory_reference,
    fun j hs => (changesDst_resetMemory_busy hs).outside⟩
  rw [applyReset_mem, resetMemory_of_not_busy hb]

/-- Settles O36: from its capacity check a command goes to work, and its work gets shorter with every step. -/
theorem runningCommandEnds : Obligations.RunningCommandEnds := by
  intro s j hs
  cases hp : j.phase with
  | check => exact check_ends hs hp
  | work b p u => exact work_ends (b + u) hs hp rfl

/-- Settles O37: the cases of one step, none of which stores outside the destination view. -/
theorem unitStepFrame : Obligations.UnitStepFrame := by
  intro s j hinv hs
  obtain ⟨-, -, -, -, hv, hp⟩ := (jobOk_busy hs).mp hinv.job
  have hdst := (tick_cases j s).changesDst hp
  rw [unitTurn_busy hs]
  exact ⟨(tick_cases j s).regsKept, hdst.outside, fun a => hdst.source (viewRefusal_none hv).2.2⟩

/-- Settles O38: the place at which the running command stands bounds both offsets. -/
theorem offsetsStayInTheViews : Obligations.OffsetsStayInTheViews := by
  refine ⟨fun s hinv hb => ?_, fun _ _ => ⟨rfl, rfl⟩⟩
  cases hs : s.status with
  | busy j =>
    obtain ⟨-, hlen, -, hcap, -, hp⟩ := (jobOk_busy hs).mp hinv.job
    rw [← hlen, ← hcap]
    exact phaseOk_offsets hp
  | _ => cases (isBusy_of_status hs).symm.trans hb

/-- Settles O41: by the host's acts, each with the condition under which it is answered. -/
theorem dutifulHostIsNeverStopped : Obligations.DutifulHostIsNeverStopped := by
  intro s
  unfold StepSafe
  cases hq : s.queue with
  | nil => exact iff_of_true ⟨unitTurn s, by simp only [step, hq]⟩ (by simp only [hostDutiful, hq])
  | cons a rest =>
    rw [step_of_queue hq]
    exact hostTurn_next_iff hq

/-- Settles O42: by the cases of a turn, commands and steps of the unit through their register frames. -/
theorem parametersNeverChange : Obligations.ParametersNeverChange := by
  intro s t h
  obtain ⟨q, hturn⟩ := turnOf_step h
  cases hturn with
  | unit q' => exact (regsKept_unitTurn _).1
  | exec i b t hb he => exact (exec_regsKept he).1
  | start i b hr => rfl
  | illegal b => rfl
  | operand x n y c hb hx hn hy hc => rfl
  | store a b ha => rfl
  | host q' d => rfl
  | reset => rfl

/-- Settles O45: four operand writes, then the step of the command form. -/
theorem commandLineSetsOperandsThenRuns : Obligations.CommandLineSetsOperandsThenRuns := by
  intro s c rest hb hwf hq
  exact ⟨run_commandLine hb hwf hq, step_call rfl hb (decode_encode c.instr)⟩

/-- Settles O46: the expanded line runs an encode command that has room for all its characters. -/
theorem encaCannotFail : Obligations.EncaCannotFail := by
  intro s c hb hwf hr hq
  obtain ⟨hline, hcall⟩ := commandLineSetsOperandsThenRuns s (encaCommandLine c) [] hb
    (wf_encaCommandLine hwf) (hq.trans (List.append_nil _).symm)
  obtain ⟨t, he, hok, -, -⟩ := exec_enc_writes (instrOf_op .enc c.cw)
    (s := { s with
      srcBase := c.src, srcLen := c.n, dstBase := c.dst, dstCap := 2 * c.n
      cmd := encode (encaCommandLine c).instr, queue := [] }) hr (Nat.le_refl _)
  exact ⟨t, run_succ_last 4 hline (hcall.trans he), hok⟩

/-- Settles O3: the fields of a command's byte are its own. -/
theorem decodeOfEncode : Obligations.DecodeOfEncode := by
  intro i
  have hword : BitVec.ofNat 8 ((encode i).toNat % 2 ^ 8) = encode i := by
    rw [Nat.mod_eq_of_lt (encode i).isLt, BitVec.ofNat_toNat, BitVec.setWidth_eq]
  refine ⟨(wf_iff_exists_word i.word).mpr ⟨i, rfl⟩, decode_encode i, ?_⟩
  simp only [decodeTableWord, hword, decode_encode]

/-- Settles O26: each write is ignored by its own rule. -/
theorem writesWhileBusyAreIgnored : Obligations.WritesWhileBusyAreIgnored :=
  fun _ hb => ⟨writeReg_busy hb, callCmd_busy hb, fun i => exec_busy i hb⟩

/-- Settles O27: the codes by evaluation; a write of `STATUS` leaves the state, whether the unit is `BUSY` or
not. -/
theorem statusRegister : Obligations.StatusRegister := by
  refine ⟨⟨rfl, fun _ => rfl, rfl, rfl, rfl, rfl⟩, fun s => ?_, fun s v => ?_, fun _ _ => rfl⟩
  · obtain ⟨hcode, hzero⟩ := status_fields s.status.code
    exact ⟨hcode, hzero, code_lt s.status⟩
  · simp only [hostTurn, writeReg]
    split <;> rfl

/-- Settles O28: the command form, when the unit is not `BUSY`, is the write of `CMD` taken up by `exec`. -/
theorem stepRunsTheDecodedCommand : Obligations.StepRunsTheDecodedCommand :=
  fun _ _ _ i hq hb hd => ⟨(wf_iff_exists_word i.word).mpr ⟨i, rfl⟩, step_call hq hb hd⟩

/-- Settles O29: the bare write, when the unit is not `BUSY`, is the write of `CMD` taken up by
`beginCommand`. -/
theorem cmdWriteStartsCommand : Obligations.CmdWriteStartsCommand := by
  intro i s v hd hr
  refine (writeReg_cmd_of_ready hr.1 v).trans ?_
  simp only [writeCmd, hd]
  exact beginCommand_of_ready (s := { s with cmd := BitVec.ofNat 8 v }) hr

/-- Settles O30: the write stores the value in its own register and touches no other field. -/
theorem operandRegisterWriteThenRead : Obligations.OperandRegisterWriteThenRead := by
  intro r s v hr hb hv
  have hcmd : r ≠ .cmd := by rcases hr with rfl | rfl | rfl | rfl <;> decide
  have hstatus : r ≠ .status := by rcases hr with rfl | rfl | rfl | rfl <;> decide
  exact ⟨setOperand r v s, writeReg_of_ready hb hcmd hv, readReg_setOperand_same hcmd hstatus v s,
    fun _ hne => readReg_setOperand_ne hne v s, setOperand_frame r v s⟩

/-- Settles O43: the access rules of R256 read off the two accesses of the host. -/
theorem buffersBelongToTheUnitWhileBusy : Obligations.BuffersBelongToTheUnitWhileBusy := by
  intro s j a b hs ha
  simp only [hostTurn, hostStore_busy hs ha, hostLoad_busy hs ha]
  cases j.inSrc a <;> cases j.inDst a <;> simp

end Sys2Proof.Machine
end
